-- ==== Sys2Proof/Word.lean ====
section
/-!
DEFINITION. The words of the interface: the 16-bit header, the numbers that beats carry, and the beats.

The reference numerics are exact reals and complex numbers (00_scope R12, 41_constellation R110). Data must be
written out and compared, so a number is the expression that spells it, as a literal of the spec's own syntax is a
decimal or a symbolic constant (30_encoding R69). DESIGN CHOICE, log 1.
-/

namespace Sys2Proof

/-- The one 16-bit header of a command (30_encoding R61). -/
abbrev Header := BitVec 16

/-- One bit of a bit sequence, "a value in {0,1}" (00_scope R11). -/
abbrev Bit := Bool

/-- A bit sequence, index 0 first (00_scope R11); for a FIFO index 0 is the head. -/
abbrev Bits := List Bit

/-- A real number, as the expression that spells it (00_scope R8 `NUM`, R12; 30_encoding R69). Its value is `RealExpr.val`.
Every real has a spelling: `free n` is a real number of which nothing is known (log 1). -/
inductive RealExpr where
  /-- a rational, a decimal among them -/
  | rat (q : Rat)
  /-- the constant pi -/
  | pi
  /-- the free real number `n`: any real, a free value (log 1) -/
  | free (n : Nat)
  | neg (x : RealExpr)
  | add (x y : RealExpr)
  | mul (x y : RealExpr)
  /-- the reciprocal; of 0 it spells 0 -/
  | inv (x : RealExpr)
  /-- the square root; of a negative number it spells 0 -/
  | root (x : RealExpr)
  | exp (x : RealExpr)
  /-- the logarithm of the magnitude; of 0 it spells 0 -/
  | log (x : RealExpr)
  | cos (x : RealExpr)
  | sin (x : RealExpr)
  /-- the arc cosine; outside `[-1, 1]` that of the nearest bound -/
  | arccos (x : RealExpr)
  | arctan (x : RealExpr)
  deriving DecidableEq, Repr

/-- An angle in normal form, `rad + pis * pi` and a sum of rational multiples of other numbers, no number twice. Two
opposite angles add up to the angle with no terms. -/
structure Angle where
  /-- the rational part, in radians -/
  rad : Rat
  /-- the rational multiple of pi -/
  pis : Rat
  /-- the other terms, each a rational multiple of a number -/
  more : List (Rat × RealExpr)
  deriving DecidableEq, Repr

/-- The complex number `(re + j*im) * e^(j*ph)`: a point turned by a rotor (00_scope R12). -/
structure Phasor where
  re : RealExpr
  im : RealExpr
  ph : Angle
  deriving DecidableEq, Repr

/-- A complex value, the sum of its phasors. A pair of reals is one phasor of phase 0. -/
abbrev Cplx := List Phasor

/-- The angle 0. -/
def Angle.zero : Angle := ⟨0, 0, []⟩

/-- The complex value with the components `(re, im)`. -/
def Cplx.ofNums (re im : RealExpr) : Cplx := [⟨re, im, Angle.zero⟩]

/-- The complex value with rational components `(re, im)`. -/
def Cplx.ofRat (re im : Rat) : Cplx := Cplx.ofNums (.rat re) (.rat im)

/-- Two rational bounds of a real number. -/
structure Bounds where
  lo : Rat
  hi : Rat
  deriving DecidableEq, Repr

/-- What rounding to the nearest integer gives (41_constellation R111): one integer, or an exact half between `n` and
`n + 1`. -/
inductive Rounding where
  | nearest (n : Int)
  | tie (n : Int)
  deriving DecidableEq, Repr

/-- One operand or result beat (30_encoding R62, R63): `int` and `cnt` carry naturals, `real` one real value,
`cplx` one complex value. -/
inductive Beat where
  | int (value : Nat)
  | cnt (n : Nat)
  | real (theta : RealExpr)
  | cplx (point : Cplx)
  deriving DecidableEq, Repr

end Sys2Proof
end

