-- ==== Sys2Proof/Machine/Operands.lean ====
section
/-!
DEFINITION. The operand and result forms: single beats, and bursts led by a count (30_encoding R62, R63).
-/

namespace Sys2Proof

/-- The naturals of a run of `int` beats; `none` where another kind of beat stands among them. -/
def Beat.ints : List Beat → Option (List Nat)
  | [] => some []
  | .int v :: rest => (Beat.ints rest).map (v :: ·)
  | _ :: _ => none

/-- The points of a run of `cplx` beats; `none` where another kind of beat stands among them. -/
def Beat.cplxs : List Beat → Option (List Cplx)
  | [] => some []
  | .cplx p :: rest => (Beat.cplxs rest).map (p :: ·)
  | _ :: _ => none

/-- A burst of `int` beats, whole: `cnt n`, then exactly `n` of them (30_encoding R62). -/
def Beat.intBurst : List Beat → Option (List Nat)
  | .cnt n :: rest => if rest.length = n then Beat.ints rest else none
  | _ => none

/-- A burst of `cplx` beats, whole: `cnt n`, then exactly `n` of them (30_encoding R62). -/
def Beat.cplxBurst : List Beat → Option (List Cplx)
  | .cnt n :: rest => if rest.length = n then Beat.cplxs rest else none
  | _ => none

/-- The beats of a burst of naturals (30_encoding R62, R63). -/
def Beat.ofInts (vs : List Nat) : List Beat := .cnt vs.length :: vs.map .int

/-- The beats of a burst of complex values (30_encoding R62, R63). -/
def Beat.ofCplxs (ps : List Cplx) : List Beat := .cnt ps.length :: ps.map .cplx

end Sys2Proof
end

