-- ==== Sys2Proof/Syntax.lean ====
section
/-!
DEFINITION. The commands of the block, one constructor per row of spec/opcode_table.json, in the table's order,
with the operands of 30_encoding R61 and R62 as typed fields.
-/

namespace Sys2Proof

/-- A command with its operands (30_encoding R60, R62, R65). A width is the signed integer of the header field
(R64); integer operands are naturals (R62, R143); a burst is a list. -/
inductive Instr where
  /-- `BS.WRITE value, width` (40_bitstream R80) -/
  | bsWrite (value : Nat) (width : Int)
  /-- `BS.WRITEALL [v0, ...], width` (40_bitstream R81) -/
  | bsWriteAll (values : List Nat) (width : Int)
  /-- `BS.READ width` (40_bitstream R82) -/
  | bsRead (width : Int)
  /-- `BS.READALL width` (40_bitstream R83) -/
  | bsReadAll (width : Int)
  /-- `ROT.SET theta` (41_constellation R108) -/
  | rotSet (theta : RealExpr)
  /-- `ROT.GET` (41_constellation R109) -/
  | rotGet
  /-- `TAB.MOD symbol` (41_constellation R105) -/
  | tabMod (symbol : Nat)
  /-- `TAB.DEM row, col` (41_constellation R106) -/
  | tabDem (row col : Nat)
  /-- `QUANT point` (41_constellation R107) -/
  | quant (point : Cplx)
  /-- `IQ.MOD symbol` (42_iq_mod_dem R120) -/
  | iqMod (symbol : Nat)
  /-- `IQ.DEM point` (42_iq_mod_dem R121) -/
  | iqDem (point : Cplx)
  /-- `MODULATE [d0, ...]` (43_modulate_demodulate R130) -/
  | modulate (data : List Nat)
  /-- `DEMODULATE [p0, ...]` (43_modulate_demodulate R131) -/
  | demodulate (samples : List Cplx)
  deriving DecidableEq, Repr

end Sys2Proof
end

