-- ==== Sys2Proof/Machine/Reals.lean ====
section
/-!
DEFINITION. The real number that an expression spells (00_scope R8 `NUM`, R12).
-/

namespace Sys2Proof

/-- FREE VALUE (log 1): the free real number `n`. Nothing is known of it, so a claim about it holds for every real. -/
opaque Config.freeReal (n : Nat) : ℝ

/-- The real number that the expression spells. -/
noncomputable def RealExpr.val : RealExpr → ℝ
  | .rat q => q
  | .pi => Real.pi
  | .free n => Config.freeReal n
  | .neg x => -x.val
  | .add x y => x.val + y.val
  | .mul x y => x.val * y.val
  | .inv x => x.val⁻¹
  | .root x => Real.sqrt x.val
  | .exp x => Real.exp x.val
  | .log x => Real.log x.val
  | .cos x => Real.cos x.val
  | .sin x => Real.sin x.val
  | .arccos x => Real.arccos x.val
  | .arctan x => Real.arctan x.val

end Sys2Proof
end

