-- ==== Sys2Proof/Config.lean ====
section
/-!
DEFINITION. The implementation parameters of 00_scope R5 to R9, and the free values.

An instance's parameters are plain data (`Config`), held in the state so that one step function serves every
instance (DESIGN CHOICE, log 2). A free value is an opaque constant: nothing is known of it, so a claim holds for
every value it may have.
-/

namespace Sys2Proof

/-- The quantizer scale `R`, any positive real (00_scope R7): the expression that spells it. -/
structure Scale where
  num : RealExpr
  pos : 0 < num.val
  deriving DecidableEq, Repr

/-- `R_SRC = sqrt 2 / 2`, the document's value (00_scope R7). -/
def Scale.rSrc : Scale := ⟨.mul (.root (.rat 2)) (.rat (1 / 2)), by simp [RealExpr.val]⟩

/-- `R_ONE = 1`, the value that inverts the table for every order (00_scope R7, 41_constellation R113). -/
def Scale.rOne : Scale := ⟨.rat 1, by simp [RealExpr.val]⟩

/-- The parameters of an instance (00_scope R9). A grid size below 2 cannot be written, and the order is the square
of the grid size, so an order the spec refuses (R5, R155 a) is no configuration. -/
structure Config where
  /-- `DIM`, the grid size per axis -/
  dim : Nat
  /-- `ORDER >= 4` (00_scope R5) -/
  two_le_dim : 2 ≤ dim
  /-- `R` -/
  scale : Scale
  /-- `DEPTH`, the capacity of F in bits; `none` is infinite, the default (00_scope R8) -/
  depth : Option Nat
  deriving DecidableEq, Repr

/-- `ORDER = DIM * DIM` (00_scope R6). -/
def Config.order (c : Config) : Nat := c.dim * c.dim

/-- `SYMBOL_BITS = DIM`, not `log2 ORDER` (00_scope R6, 90_conflicts C1). -/
def Config.symbolBits (c : Config) : Nat := c.dim

/-- `DATA_BITS = 8` (00_scope R6). -/
def Config.dataBits : Nat := 8

/-- `WMAX`, the largest width a header carries (00_scope R8). -/
def Config.widthMax : Int := 2047

/-- The least width a header carries (30_encoding R64). -/
def Config.widthMin : Int := -2048

/-- The grid size of an order, where there is one: 41_constellation R100 for a perfect square from 4 up. -/
def Config.gridSize (order : Nat) : Option Nat :=
  (List.range (order + 1)).find? fun d => d * d = order ∧ 2 ≤ d

/-- Instantiation with an order: refused (`none`) where the order is no perfect square or is below 4
(00_scope R5, 41_constellation R100, 60_exceptions R155 a). -/
def Config.ofOrder (order : Nat) (scale : Scale) (depth : Option Nat) : Option Config :=
  (Config.gridSize order).bind fun d => if h : 2 ≤ d then some ⟨d, h, scale, depth⟩ else none

/-- The instance that `State.reset` is of: order 4, `R_SRC`, unbounded F. DESIGN CHOICE, log 3: the spec gives the
order and `R` no default. -/
def Config.default : Config := ⟨2, by decide, Scale.rSrc, none⟩

/-- FREE VALUE (41_constellation R111, log 5): at an exact half the draw `k` takes the upper neighbour or not. -/
opaque Config.tieUp (draw : Nat) : Bool

end Sys2Proof
end

