-- ==== Sys2Proof/WellFormed.lean ====
section
/-!
DEFINITION. Which commands a header can carry: the width of a CW command lies in the range of its signed 12-bit
field (30_encoding R61, R64). Every other operand is of its beat's type by construction (R62).
-/

namespace Sys2Proof

/-- The width fits the header's 12-bit two's-complement field (30_encoding R64). -/
def widthFits (width : Int) : Bool := decide (Config.widthMin ≤ width) && decide (width ≤ Config.widthMax)

/-- The command can be issued through the header encoding (30_encoding R61, R62). -/
def Instr.wellFormed : Instr → Bool
  | .bsWrite _ width => widthFits width
  | .bsWriteAll _ width => widthFits width
  | .bsRead width => widthFits width
  | .bsReadAll width => widthFits width
  | .rotSet _ => true
  | .rotGet => true
  | .tabMod _ => true
  | .tabDem _ _ => true
  | .quant _ => true
  | .iqMod _ => true
  | .iqDem _ => true
  | .modulate _ => true
  | .demodulate _ => true

end Sys2Proof
end

