-- ==== Sys2Proof/Decode.lean ====
section
/-!
DEFINITION. The decoder of a transaction (a header and its operand beats, 30_encoding R60 to R68), total and
rejecting by name, and after it the encoder written from the same tables.
-/

namespace Sys2Proof

/-- Why a transaction is no command. -/
inductive DecodeError where
  /-- The header spells no command (30_encoding R66, R67): the decoder's `IllegalCommand`. -/
  | illegalCommand
  /-- The header spells a command and the beats are not those of R62 (60_exceptions R155 b, c). -/
  | malformed
  deriving DecidableEq, Repr

/-- The field `op`, bits 15:12 (30_encoding R61). -/
def Header.op (h : Header) : BitVec 4 := h.extractLsb' 12 4

/-- The field in bits 11:0: the width `w` of a CW header, the must-be-zero `z` of a C0 header (30_encoding R61). -/
def Header.low (h : Header) : BitVec 12 := h.extractLsb' 0 12

/-- `width = sext_12(w)` (30_encoding R64). -/
def Header.width (h : Header) : Int := (Header.low h).toInt

/-- A C0 command: its `z` field must be zero (30_encoding R67). -/
def decodeC0 (h : Header) (i : Option Instr) : Except DecodeError Instr :=
  if Header.low h = 0 then
    match i with
    | some i => .ok i
    | none => .error .malformed
  else .error .illegalCommand

/-- A CW command: every width field is decoded (30_encoding R67). -/
def decodeCW (i : Option Instr) : Except DecodeError Instr :=
  match i with
  | some i => .ok i
  | none => .error .malformed

/-- No operand beat. -/
def takeNone (i : Instr) : List Beat → Option Instr
  | [] => some i
  | _ => none

/-- One `int` beat. -/
def takeInt (f : Nat → Instr) : List Beat → Option Instr
  | [.int v] => some (f v)
  | _ => none

/-- Two `int` beats. -/
def takeInt2 (f : Nat → Nat → Instr) : List Beat → Option Instr
  | [.int a, .int b] => some (f a b)
  | _ => none

/-- One `real` beat. -/
def takeReal (f : RealExpr → Instr) : List Beat → Option Instr
  | [.real x] => some (f x)
  | _ => none

/-- One `cplx` beat. -/
def takeCplx (f : Cplx → Instr) : List Beat → Option Instr
  | [.cplx p] => some (f p)
  | _ => none

/-- The command that a header and its beats spell (30_encoding R61 to R68, the opcode map of R65). -/
def decode (h : Header) (beats : List Beat) : Except DecodeError Instr :=
  match (Header.op h).toNat with
  | 1 => decodeCW (takeInt (fun v => .bsWrite v (Header.width h)) beats)
  | 2 => decodeCW ((Beat.intBurst beats).map fun vs => .bsWriteAll vs (Header.width h))
  | 3 => decodeCW (takeNone (.bsRead (Header.width h)) beats)
  | 4 => decodeCW (takeNone (.bsReadAll (Header.width h)) beats)
  | 5 => decodeC0 h (takeReal .rotSet beats)
  | 6 => decodeC0 h (takeNone .rotGet beats)
  | 7 => decodeC0 h (takeInt .tabMod beats)
  | 8 => decodeC0 h (takeInt2 .tabDem beats)
  | 9 => decodeC0 h (takeCplx .quant beats)
  | 10 => decodeC0 h (takeInt .iqMod beats)
  | 11 => decodeC0 h (takeCplx .iqDem beats)
  | 12 => decodeC0 h ((Beat.intBurst beats).map .modulate)
  | 13 => decodeC0 h ((Beat.cplxBurst beats).map .demodulate)
  | _ => .error .illegalCommand

/-- The zero operand beats of a header: the operand words of zeros that follow it in the host's numbering of the
table (log 19). -/
def zeroBeats (h : Header) : List Beat :=
  match (Header.op h).toNat with
  | 1 => [.int 0]
  | 2 => [.cnt 0]
  | 5 => [.real (.rat 0)]
  | 7 => [.int 0]
  | 8 => [.int 0, .int 0]
  | 9 => [.cplx (Cplx.ofRat 0 0)]
  | 10 => [.int 0]
  | 11 => [.cplx (Cplx.ofRat 0 0)]
  | 12 => [.cnt 0]
  | 13 => [.cnt 0]
  | _ => []

/-- The instruction read from a row's bits with operand words of zeros (log 19). Every header has 16 bits; the bits
of `w` from 16 up are operand bits and are zero. -/
def decodeTableWord (_nbits w : Nat) : Option Instr :=
  (decode (BitVec.ofNat 16 w) (zeroBeats (BitVec.ofNat 16 w))).toOption

/-- A CW header (30_encoding R61): the opcode and the 12-bit two's-complement width. -/
def headerCW (op : BitVec 4) (width : Int) : Header := op ++ BitVec.ofInt 12 width

/-- A C0 header (30_encoding R61): the opcode and zeros. -/
def headerC0 (op : BitVec 4) : Header := op ++ (0 : BitVec 12)

/-- The header of a command (30_encoding R65). -/
def encodeHeader : Instr → Header
  | .bsWrite _ width => headerCW 1 width
  | .bsWriteAll _ width => headerCW 2 width
  | .bsRead width => headerCW 3 width
  | .bsReadAll width => headerCW 4 width
  | .rotSet _ => headerC0 5
  | .rotGet => headerC0 6
  | .tabMod _ => headerC0 7
  | .tabDem _ _ => headerC0 8
  | .quant _ => headerC0 9
  | .iqMod _ => headerC0 10
  | .iqDem _ => headerC0 11
  | .modulate _ => headerC0 12
  | .demodulate _ => headerC0 13

/-- The operand beats of a command (30_encoding R62). -/
def encodeBeats : Instr → List Beat
  | .bsWrite value _ => [.int value]
  | .bsWriteAll values _ => Beat.ofInts values
  | .bsRead _ => []
  | .bsReadAll _ => []
  | .rotSet theta => [.real theta]
  | .rotGet => []
  | .tabMod symbol => [.int symbol]
  | .tabDem row col => [.int row, .int col]
  | .quant point => [.cplx point]
  | .iqMod symbol => [.int symbol]
  | .iqDem point => [.cplx point]
  | .modulate data => Beat.ofInts data
  | .demodulate samples => Beat.ofCplxs samples

/-- The words of a well-formed command: its header and its operand beats. -/
def encode (i : Instr) : Header × List Beat := (encodeHeader i, encodeBeats i)

end Sys2Proof
end

