-- ==== Sys2Proof/Machine/Bits.lean ====
section
/-!
DEFINITION. Bit sequences: the little-endian decomposition of a word, the value of a sequence, and the cut into
groups (00_scope R10, R11; 20_memory R40 to R42).
-/

namespace Sys2Proof

/-- `bit(v, i) = (v div 2^i) mod 2` (00_scope R10). -/
def bit (v i : Nat) : Bit := v / 2 ^ i % 2 == 1

/-- `lsbits(v, w) = [bit(v, 0), ..., bit(v, w - 1)]` (00_scope R11). -/
def lsbits (v w : Nat) : Bits := (List.range w).map (bit v)

/-- `val(s)`, the sum of `s[i] * 2^i` (00_scope R11). -/
def bitsVal : Bits → Nat
  | [] => 0
  | b :: s => (if b then 1 else 0) + 2 * bitsVal s

/-- All the words of `vs` at width `w`, element 0 nearest the head (20_memory R41). -/
def lsbitsAll (vs : List Nat) (w : Nat) : Bits := vs.flatMap fun v => lsbits v w

/-- How many whole groups of `w` bits a sequence holds, `floor(len / w)` (40_bitstream R83). -/
def groupCount (w : Nat) (s : Bits) : Nat := s.length / w

/-- The values of the whole groups of `w` bits, first group first: word `k` is `val(take(w, drop(k*w, s)))`
(40_bitstream R83). -/
def groups (w : Nat) (s : Bits) : List Nat :=
  (List.range (groupCount w s)).map fun k => bitsVal ((s.drop (k * w)).take w)

/-- What is left when the whole groups are removed (40_bitstream R83). -/
def groupRest (w : Nat) (s : Bits) : Bits := s.drop (groupCount w s * w)

end Sys2Proof
end

