-- ==== Sys2Proof/Machine/State.lean ====
section
/-!
DEFINITION. The state of the block and of its interface, the reasons a step can stop, and reset
(10_state R20 to R31, 30_encoding R60 to R63, 70_reset_and_hazards R160).
-/

namespace Sys2Proof.Machine

/-- The causes of a command's fault (60_exceptions R141). A command that faults ANSWERS its cause and the block goes
on (R151, R152); the machine does not stop. -/
inductive Cause where
  /-- "negative width passed to BitStream" (R142) -/
  | invalidWidth
  /-- a symbol or chunk not below ORDER (R143) -/
  | invalidSymbol
  /-- a coordinate outside `[-1, 1]`, or an index outside `[0, DIM)` (R144) -/
  | outOfRange
  /-- `BS.READALL` with width 0 (R145) -/
  | zeroWidth
  /-- a write that a finite DEPTH cannot hold (R147) -/
  | fifoOverflow
  /-- a header that spells no command (R146) -/
  | illegalCommand
  deriving DecidableEq, Repr

/-- The answer to one command: a 4-bit status and the result beats (30_encoding R63). -/
structure Response where
  status : BitVec 4
  beats : List Beat
  deriving DecidableEq, Repr

/-- What the host puts before the block (30_encoding R60). -/
inductive HostEvent where
  /-- a command: its header and the operand beats sent with it -/
  | command (header : Header) (beats : List Beat)
  /-- the reset event, between commands (70_reset_and_hazards R160) -/
  | reset
  /-- operand beats that stand on the operand channel with no command before them: what an illegal header, which
  consumes no beat (30_encoding R66), leaves behind (log 10) -/
  | strayBeats (beats : List Beat)
  deriving DecidableEq, Repr

/-- The state: the spec's two elements `F` and `ROT` (10_state R29), the instance's parameters, and the model's own
record of the interface. -/
structure State where
  /-- `F`, the FIFO's bits, head first (10_state R24) -/
  fifo : Bits
  /-- `ROT`, the rotation register (10_state R23) -/
  rot : RealExpr
  /-- the parameters of the instance (00_scope R9), never changed by a step (log 2) -/
  cfg : Config
  /-- what the host has issued and the block has not yet accepted, oldest first (10_state R21, log 8) -/
  inbox : List HostEvent
  /-- the responses delivered, oldest first (30_encoding R63, log 9) -/
  responses : List Response
  /-- how many free values have been drawn (41_constellation R111, log 7) -/
  draws : Nat
  deriving DecidableEq, Repr

/-- The reasons for which the MACHINE would stop with a fault: none. Every fault of the spec is an answer after which
the block goes on (60_exceptions R152), and there is no stuck state (70_reset_and_hazards R176), log 12. -/
inductive Fault where
  deriving DecidableEq, Repr

/-- What the model gives no meaning. -/
inductive Refusal where
  /-- An instruction that has no meaning yet: raised by `exec` in its arm; safe. No arm of this model raises it. -/
  | notModelled (mnemonic : String)
  /-- A transaction with the wrong number or kinds of operand beats (60_exceptions R155 b, c): raised by `step`;
  safe, since nothing can be proved of what follows (log 10). -/
  | malformedTransaction
  deriving DecidableEq, Repr

/-- The state right after reset of the instance with the parameters `c` (10_state R30): `F = []`, `ROT = 0`. -/
def State.resetOf (c : Config) : State :=
  { fifo := [], rot := RealExpr.rat 0, cfg := c, inbox := [], responses := [], draws := 0 }

/-- The machine right after reset, of the instance `Config.default` (10_state R30, log 3). -/
def State.reset : State := State.resetOf Config.default

end Sys2Proof.Machine
end

