-- ==== Sys2Proof/Machine/Flags.lean ====
section
/-!
DEFINITION. The block has no flags (10_state R22): what a command reports is the status of its response. The codes of
30_encoding R63 and 60_exceptions R141.
-/

namespace Sys2Proof.Machine

/-- Status `OK` (30_encoding R63). -/
def statusOk : BitVec 4 := 0x0

/-- Status `NoData` (30_encoding R63, 60_exceptions R148). -/
def statusNoData : BitVec 4 := 0x1

/-- The cause codes (60_exceptions R141). -/
def causeCode : Cause → BitVec 4
  | .invalidWidth => 0x8
  | .invalidSymbol => 0x9
  | .outOfRange => 0xA
  | .zeroWidth => 0xB
  | .fifoOverflow => 0xC
  | .illegalCommand => 0xF

/-- A status with bit 3 set is a fault (30_encoding R63). -/
def isFault (status : BitVec 4) : Bool := status.getLsbD 3

/-- The response `OK` with its result beats (30_encoding R63). -/
def okResponse (beats : List Beat) : Response := ⟨statusOk, beats⟩

/-- The response `NoData`, with no beat (30_encoding R63). -/
def noDataResponse : Response := ⟨statusNoData, []⟩

/-- A fault response: the cause code and exactly one `cnt` beat, `info` (30_encoding R63). -/
def faultResponse (c : Cause) (info : Nat) : Response := ⟨causeCode c, [.cnt info]⟩

end Sys2Proof.Machine
end

