-- ==== Sys2Proof/Machine/Ops.lean ====
section
/-!
DEFINITION. The named operations on the state: FIFO access, the register ROT, delivering a response, taking a fault
and what stands in for the return from one (00_scope R13, 60_exceptions R151, R152), and the reset event.
-/

namespace Sys2Proof.Machine

/-- The outcome of a step of this machine. -/
abbrev Result := Host.Outcome State Fault Refusal

/-- `FifoPush(s)`: append at the tail (00_scope R13). -/
def State.fifoPush (b : Bits) (s : State) : State := { s with fifo := s.fifo ++ b }

/-- The state's half of `FifoPop(k)`: remove `k` bits from the head (00_scope R13). -/
def State.fifoDrop (k : Nat) (s : State) : State := { s with fifo := s.fifo.drop k }

/-- `ROT <- theta` (00_scope R13). -/
def State.setRot (theta : RealExpr) (s : State) : State := { s with rot := theta }

/-- `n` draws of the free values are used up (log 7). -/
def State.draw (n : Nat) (s : State) : State := { s with draws := s.draws + n }

/-- Deliver a response (30_encoding R60, R63). -/
def State.respond (r : Response) (s : State) : State := { s with responses := s.responses ++ [r] }

/-- Whether appending `n` bits would exceed a finite DEPTH (40_bitstream R88). -/
def State.overflows (n : Nat) (s : State) : Bool :=
  match s.cfg.depth with
  | none => false
  | some d => d < s.fifo.length + n

/-- `return v`: the command ends with status `OK` and its result beats (00_scope R13). -/
def complete (beats : List Beat) (s : State) : Result := .next (s.respond (okResponse beats))

/-- `return NoData` (00_scope R13, 60_exceptions R148). -/
def completeNoData (s : State) : Result := .next (s.respond noDataResponse)

/-- `raise c(info)`, TAKING A FAULT (60_exceptions R151): no architectural state is written, nothing is saved, control
goes nowhere; the response carries the cause and `info`. THE RETURN from a fault is no operation (R152): the state
after is ready for the next command. -/
def raise (c : Cause) (info : Nat) (s : State) : Result := .next (s.respond (faultResponse c info))

/-- The reset event (70_reset_and_hazards R160): `F = []`, `ROT = 0`. The parameters stay; so do the host's list, its
transcript and the count of draws, which are no state of the block (log 11). -/
def State.doReset (s : State) : State := { s with fifo := [], rot := RealExpr.rat 0 }

end Sys2Proof.Machine
end

