-- ==== Sys2Proof/Machine/Accept.lean ====
section
/-!
DEFINITION. Accepting what the host has issued: the decoder's outcome for a transaction (30_encoding R60 to R68,
60_exceptions R146, R150, R155), and placing an instruction before the block.
-/

namespace Sys2Proof.Machine

/-- What the decoder makes of a transaction. -/
inductive Accepted where
  /-- a command, to be executed in the given state -/
  | run (i : Instr) (s : State)
  /-- an outcome without a command: an illegal header, or a malformed transaction -/
  | done (r : Result)

/-- The state in which the event at the head of the host's list has been taken. -/
def State.taking (rest : List HostEvent) (s : State) : State := { s with inbox := rest }

/-- The host's list after an illegal header that came with the given beats: it consumes none of them
(30_encoding R66). -/
def leaveBeats (beats : List Beat) (rest : List HostEvent) : List HostEvent :=
  match beats with
  | [] => rest
  | _ :: _ => .strayBeats beats :: rest

/-- Accept a transaction (30_encoding R60): decode it; an illegal header faults before anything else (60_exceptions
R146, R150), and a transaction with the wrong beats is refused (R155). -/
def accept (h : Header) (beats : List Beat) (rest : List HostEvent) (s : State) : Accepted :=
  match decode h beats with
  | .ok i => .run i (s.taking rest)
  | .error .illegalCommand => .done (raise .illegalCommand 0 (s.taking (leaveBeats beats rest)))
  | .error .malformed => .done (.refused .malformedTransaction)

/-- A table row's instruction, with zero operand beats, at the head of the host's list. -/
def State.placing (h : Header) (s : State) : State := s.taking (.command h (zeroBeats h) :: s.inbox)

end Sys2Proof.Machine
end

