-- ==== Sys2Proof/Machine/BitStream.lean ====
section
/-!
DEFINITION. The meanings of the FIFO commands (40_bitstream R80 to R83). Their tests stand in the order of
60_exceptions R150.
-/

namespace Sys2Proof.Machine

/-- `BS.WRITE value, width` (40_bitstream R80). -/
def execBsWrite (value : Nat) (width : Int) (s : State) : Result :=
  if width < 0 then raise .invalidWidth 0 s
  else if s.overflows width.toNat then raise .fifoOverflow 0 s
  else complete [] (s.fifoPush (lsbits value width.toNat))

/-- `BS.WRITEALL [v0, ...], width` (40_bitstream R81): the width once, then all or nothing. -/
def execBsWriteAll (values : List Nat) (width : Int) (s : State) : Result :=
  if width < 0 then raise .invalidWidth 0 s
  else if s.overflows (values.length * width.toNat) then raise .fifoOverflow 0 s
  else complete [] (s.fifoPush (lsbitsAll values width.toNat))

/-- `BS.READ width` (40_bitstream R82): a short read takes what remains. -/
def execBsRead (width : Int) (s : State) : Result :=
  if width < 0 then raise .invalidWidth 0 s
  else if s.fifo.length = 0 then completeNoData s
  else
    let k := min width.toNat s.fifo.length
    complete [.int (bitsVal (s.fifo.take k))] (s.fifoDrop k)

/-- `BS.READALL width` (40_bitstream R83): every whole group, the rest stays. -/
def execBsReadAll (width : Int) (s : State) : Result :=
  if width < 0 then raise .invalidWidth 0 s
  else if width = 0 then raise .zeroWidth 0 s
  else
    complete (Beat.ofInts (groups width.toNat s.fifo))
      (s.fifoDrop (groupCount width.toNat s.fifo * width.toNat))

end Sys2Proof.Machine
end

