-- ==== Sys2Proof/Machine/Intervals.lean ====
section
/-!
DEFINITION. Rational bounds of real numbers to a chosen precision: interval arithmetic, and bounds of every function
that an expression is made of (00_scope R12, 41_constellation R110). The precision `p` is a number of bits; every loop
here runs a number of times that is fixed before it starts.
-/

namespace Sys2Proof

/-! ### Arithmetic -/

/-- The greatest multiple of `2^-p` that is not above `x`. -/
def roundDown (p : Nat) (x : Rat) : Rat := mkRat (x * ((2 ^ p : Nat) : Rat)).floor (2 ^ p)

/-- The least multiple of `2^-p` that is not below `x`. -/
def roundUp (p : Nat) (x : Rat) : Rat := -roundDown p (-x)

/-- Bounds rounded outward to multiples of `2^-p`. -/
def Bounds.outward (p : Nat) (x : Bounds) : Bounds := ⟨roundDown p x.lo, roundUp p x.hi⟩

/-- Bounds of a rational. -/
def Bounds.point (q : Rat) : Bounds := ⟨q, q⟩

/-- Bounds of a sum. -/
def Bounds.add (x y : Bounds) : Bounds := ⟨x.lo + y.lo, x.hi + y.hi⟩

/-- Bounds of a rational multiple. -/
def Bounds.scale (q : Rat) (x : Bounds) : Bounds :=
  if 0 ≤ q then ⟨q * x.lo, q * x.hi⟩ else ⟨q * x.hi, q * x.lo⟩

/-- Bounds of a product. -/
def Bounds.mul (x y : Bounds) : Bounds :=
  ⟨min (min (x.lo * y.lo) (x.lo * y.hi)) (min (x.hi * y.lo) (x.hi * y.hi)),
   max (max (x.lo * y.lo) (x.lo * y.hi)) (max (x.hi * y.lo) (x.hi * y.hi))⟩

/-- Bounds of a square. -/
def Bounds.square (x : Bounds) : Bounds :=
  ⟨if 0 ≤ x.lo then x.lo * x.lo else if x.hi ≤ 0 then x.hi * x.hi else 0, max (x.lo * x.lo) (x.hi * x.hi)⟩

/-- Bounds of a reciprocal, where 0 is excluded. -/
def Bounds.inv (x : Bounds) : Option Bounds :=
  if 0 < x.lo ∨ x.hi < 0 then some ⟨1 / x.hi, 1 / x.lo⟩ else none

/-- How many bits the integer parts of the bounds have. -/
def Bounds.magnitude (x : Bounds) : Nat := (x.lo.floor.natAbs + x.hi.floor.natAbs + 1).log2

/-- The sign that bounds decide. -/
def Bounds.sign (x : Bounds) : Option Ordering :=
  if 0 < x.lo then some .gt else if x.hi < 0 then some .lt else none

/-- The integer `n` that bounds place the number within two above, in `[n, n + 2)`. -/
def Bounds.base (x : Bounds) : Option Int :=
  if x.hi < (x.lo.floor : Rat) + 2 then some x.lo.floor else none

/-! ### Square roots -/

/-- `isqrt`'s loop: the bits from `i - 1` down to 0 of the root of `n`, `r` being the bits above. -/
def isqrtLoop (n : Nat) : Nat → Nat → Nat
  | 0, r => r
  | i + 1, r => isqrtLoop n i (if (r + 2 ^ i) * (r + 2 ^ i) ≤ n then r + 2 ^ i else r)

/-- The integer square root: the greatest `r` with `r * r <= n`. -/
def isqrt (n : Nat) : Nat := isqrtLoop n (n.log2 / 2 + 1) 0

/-- The integer root that the bounds of a square root are made of. -/
def rootSteps (p : Nat) (q : Rat) : Nat := isqrt (q * ((4 ^ p : Nat) : Rat)).floor.toNat

/-- Bounds of a square root, multiples of `2^-p`. The root of a negative number is 0. -/
def Bounds.root (p : Nat) (x : Bounds) : Bounds :=
  ⟨mkRat (rootSteps p x.lo) (2 ^ p), mkRat (rootSteps p x.hi + 1) (2 ^ p)⟩

/-! ### The exponential and the logarithm -/

/-- Bounds of `v^(2^n)` from those of `v`: `n` squarings, rounded outward. -/
def Bounds.squares (p : Nat) : Nat → Bounds → Bounds
  | 0, c => c
  | n + 1, c => Bounds.squares p n ((Bounds.square c).outward p)

/-- Bounds of the exponential: with `y = x/2^k` small, `1 + y <= exp y <= 1/(1 - y)`, squared `k` times. How great a
number may be grows with the precision, from 16 bits. -/
def Bounds.exp (p : Nat) (x : Bounds) : Option Bounds :=
  let k := p + 2 * x.magnitude + 8
  let y := Bounds.scale (1 / ((2 ^ k : Nat) : Rat)) x
  if x.magnitude ≤ p.log2 + 11 ∧ y.hi < 1 then some (Bounds.squares (2 * k) k ⟨1 + y.lo, 1 / (1 - y.hi)⟩) else none

/-- Bounds of the `2^n`-th root: `n` square roots. -/
def Bounds.roots (p : Nat) : Nat → Bounds → Bounds
  | 0, c => c
  | n + 1, c => Bounds.roots p n (Bounds.root p c)

/-- Bounds of the logarithm of a positive number: with `y` its `2^k`-th root, `1 - 1/y <= log y <= y - 1`. -/
def Bounds.logPos (p : Nat) (x : Bounds) : Option Bounds :=
  let k := p + 24
  let y := Bounds.roots (2 * k + 32) k x
  if 0 < x.lo ∧ 0 < y.lo then some (Bounds.scale ((2 ^ k : Nat) : Rat) ⟨1 - 1 / y.lo, y.hi - 1⟩) else none

/-- Bounds of the logarithm of the magnitude, where the sign is known. -/
def Bounds.log (p : Nat) (x : Bounds) : Option Bounds :=
  if x.hi < 0 then Bounds.logPos p (Bounds.scale (-1) x) else Bounds.logPos p x

/-! ### Arc cosine, pi, cosine and the rest -/

/-- The number brought into `[-1, 1]`. -/
def Bounds.clip (x : Bounds) : Bounds := ⟨min 1 (max x.lo (-1)), max (-1) (min x.hi 1)⟩

/-- Bounds of `cos(a/2^n)` from those of `cos a`, `a` in `[0, pi]`: `cos(a/2) = sqrt((1 + cos a)/2)`. -/
def cosHalves (p : Nat) : Nat → Bounds → Bounds
  | 0, c => c
  | n + 1, c => cosHalves p n (Bounds.root p (Bounds.scale (1 / 2) (Bounds.add (Bounds.point 1) c)))

/-- Bounds of the arc cosine: the angle is halved until it is small, and there `sin b <= b <= sin b / cos b`. -/
def Bounds.arccos (p : Nat) (x : Bounds) : Option Bounds :=
  let k := p / 2 + 8
  let q := 2 * k + 2 * p + 16
  let c := cosHalves q k x.clip
  let s := Bounds.root q (Bounds.add (Bounds.point 1) (Bounds.scale (-1) (Bounds.square c)))
  if 0 < c.lo then some (Bounds.scale ((2 ^ k : Nat) : Rat) ⟨s.lo, s.hi / c.lo⟩) else none

/-- Bounds of pi, twenty decimals. -/
def piDecimals : Bounds := ⟨314159265358979323846 / 10 ^ 20, 314159265358979323847 / 10 ^ 20⟩

/-- Bounds of pi, the arc cosine of -1. -/
def piBounds (p : Nat) : Bounds :=
  if p ≤ 60 then piDecimals else (Bounds.arccos p (Bounds.point (-1))).getD piDecimals

/-- Bounds of `cos(2 * y)` from those of `cos y`: `2 c^2 - 1`, rounded outward to multiples of `2^-p`. -/
def cosDouble (p : Nat) (c : Bounds) : Bounds :=
  ⟨roundDown p (2 * (Bounds.square c).lo - 1), roundUp p (2 * (Bounds.square c).hi - 1)⟩

/-- `cosDouble`, `n` times. -/
def cosDoubles (p : Nat) : Nat → Bounds → Bounds
  | 0, c => c
  | n + 1, c => cosDoubles p n (cosDouble p c)

/-- Bounds of `cos y` for `y` of magnitude at most 1, from the first terms of its series. -/
def cosSmall (p : Nat) (y : Bounds) : Bounds :=
  let s := Bounds.square y
  let e := s.hi * s.hi * (5 / 96)
  if s.hi ≤ 1 then ⟨roundDown p (1 - s.hi / 2 - e), roundUp p (1 - s.lo / 2 + e)⟩ else ⟨-1, 1⟩

/-- Bounds of the cosine: the angle is halved until it is small, and the cosine doubled back. -/
def Bounds.cos (p : Nat) (x : Bounds) : Bounds :=
  let n := p / 2 + 2 * x.magnitude + 6
  let q := 2 * n + p + 8
  cosDoubles q n (cosSmall q (Bounds.scale (1 / ((2 ^ n : Nat) : Rat)) x))

/-- Bounds of the sine, `cos(x - pi/2)`. -/
def Bounds.sin (p : Nat) (x : Bounds) : Bounds := Bounds.cos p (Bounds.add x (Bounds.scale (-1 / 2) (piBounds p)))

/-- Bounds of the arc tangent, `pi/2 - arccos (x / sqrt (1 + x^2))`. -/
def Bounds.arctan (p : Nat) (x : Bounds) : Option Bounds :=
  (Bounds.root (2 * p + 8) (Bounds.add (Bounds.point 1) (Bounds.square x))).inv.bind fun r =>
    (Bounds.arccos p (Bounds.mul x r)).map fun a => Bounds.add (Bounds.scale (1 / 2) (piBounds p)) (Bounds.scale (-1) a)

/-- Bounds of the number that an expression spells, where there are any to this precision. Of a free real there are
none. -/
def RealExpr.bounds (p : Nat) : RealExpr → Option Bounds
  | .rat q => some (Bounds.point q)
  | .pi => some (piBounds p)
  | .free _ => none
  | .neg x => (x.bounds p).map (Bounds.scale (-1))
  | .add x y => (x.bounds p).bind fun a => (y.bounds p).map fun b => Bounds.add a b
  | .mul x y => (x.bounds p).bind fun a => (y.bounds p).map fun b => Bounds.mul a b
  | .inv x => (x.bounds p).bind Bounds.inv
  | .root x => (x.bounds p).map (Bounds.root p)
  | .exp x => (x.bounds p).bind (Bounds.exp p)
  | .log x => (x.bounds p).bind (Bounds.log p)
  | .cos x => (x.bounds p).map (Bounds.cos p)
  | .sin x => (x.bounds p).map (Bounds.sin p)
  | .arccos x => (x.bounds p).bind (Bounds.arccos p)
  | .arctan x => (x.bounds p).bind (Bounds.arctan p)

end Sys2Proof
end

