-- ==== Sys2Proof/Machine/Numerics.lean ====
section
/-!
DEFINITION. The reference numerics: rotation of complex values and their coordinates (00_scope R12, 41_constellation
R107, R110).
-/

namespace Sys2Proof

/-! ### Angles and phasors -/

/-- `q * x` added to a sum of multiples of numbers: merged with a term of the same number, dropped where it cancels. -/
def addTerm (q : Rat) (x : RealExpr) : List (Rat × RealExpr) → List (Rat × RealExpr)
  | [] => [(q, x)]
  | (r, y) :: rest => if x = y then (if r + q = 0 then rest else (r + q, y) :: rest) else (r, y) :: addTerm q x rest

/-- The sum of two angles. -/
def Angle.add (a b : Angle) : Angle :=
  ⟨a.rad + b.rad, a.pis + b.pis, a.more.foldr (fun t rest => addTerm t.1 t.2 rest) b.more⟩

/-- The angle multiplied by a rational. -/
def Angle.scale (q : Rat) (a : Angle) : Angle :=
  ⟨q * a.rad, q * a.pis, if q = 0 then [] else a.more.map fun t => (q * t.1, t.2)⟩

/-- The opposite angle. -/
def Angle.neg (a : Angle) : Angle := a.scale (-1)

/-- The angle of one number that is not taken apart. -/
def Angle.single (x : RealExpr) : Angle := ⟨0, 0, [(1, x)]⟩

/-- The rational that an expression without constants and functions spells. -/
def RealExpr.literal : RealExpr → Option Rat
  | .rat q => some q
  | .neg x => x.literal.map fun q => -q
  | .add x y => x.literal.bind fun q => y.literal.map fun r => q + r
  | .mul x y => x.literal.bind fun q => y.literal.map fun r => q * r
  | .inv x => x.literal.map fun q => q⁻¹
  | _ => none

/-- The normal form of a number as an angle. -/
def Angle.ofNum : RealExpr → Angle
  | .rat q => ⟨q, 0, []⟩
  | .pi => ⟨0, 1, []⟩
  | .neg x => (Angle.ofNum x).neg
  | .add x y => (Angle.ofNum x).add (Angle.ofNum y)
  | .mul x y =>
    match x.literal, y.literal with
    | some q, _ => (Angle.ofNum y).scale q
    | none, some q => (Angle.ofNum x).scale q
    | none, none => Angle.single (.mul x y)
  | .free n => Angle.single (.free n)
  | .inv x =>
    match x.literal with
    | some q => ⟨q⁻¹, 0, []⟩
    | none => Angle.single (.inv x)
  | .root x => Angle.single (.root x)
  | .exp x => Angle.single (.exp x)
  | .log x => Angle.single (.log x)
  | .cos x => Angle.single (.cos x)
  | .sin x => Angle.single (.sin x)
  | .arccos x => Angle.single (.arccos x)
  | .arctan x => Angle.single (.arctan x)

/-- The number that a sum of multiples of numbers spells. -/
def termsNum : List (Rat × RealExpr) → RealExpr
  | [] => .rat 0
  | (q, x) :: rest => .add (.mul (.rat q) x) (termsNum rest)

/-- The number that an angle spells. -/
def Angle.num (a : Angle) : RealExpr := .add (.add (.rat a.rad) (.mul (.rat a.pis) .pi)) (termsNum a.more)

/-- The opposite number, spelled short. -/
def RealExpr.opposite : RealExpr → RealExpr
  | .rat q => .rat (-q)
  | .neg x => x
  | x => .neg x

/-- The phasor multiplied by `rotor(theta)` (00_scope R12). -/
def Phasor.turn (theta : Angle) (t : Phasor) : Phasor := ⟨t.re, t.im, t.ph.add theta⟩

/-- The phasor multiplied by `j^k`, its phase kept: a multiplication by `j` sends `(re, im)` to `(-im, re)`. -/
def Phasor.quarterTurns (k : Int) (t : Phasor) : Phasor :=
  if k % 4 = 0 then t
  else if k % 4 = 1 then ⟨t.im.opposite, t.re, t.ph⟩
  else if k % 4 = 2 then ⟨t.re.opposite, t.im.opposite, t.ph⟩
  else ⟨t.im, t.re.opposite, t.ph⟩

/-- The same value with the rational multiple of pi in its phase brought into `[0, 1/2)`: whole quarter turns go
into the components, so that a rotation by a multiple of pi/2 gives rational components (log 17). -/
def Phasor.reduce (t : Phasor) : Phasor :=
  Phasor.quarterTurns (2 * t.ph.pis).floor
    ⟨t.re, t.im, ⟨t.ph.rad, t.ph.pis - ((2 * t.ph.pis).floor : Rat) / 2, t.ph.more⟩⟩

/-- The complex value multiplied by `rotor(theta)` (42_iq_mod_dem R120, R121). -/
def Cplx.rotate (z : Cplx) (theta : Angle) : Cplx := z.map fun t => (t.turn theta).reduce

/-! ### Coordinates -/

/-- The real part `re * cos ph - im * sin ph` of a phasor (00_scope R12). -/
def Phasor.realNum (t : Phasor) : RealExpr :=
  .add (.mul t.re (.cos t.ph.num)) (.neg (.mul t.im (.sin t.ph.num)))

/-- The phasor multiplied by `-j`, whose real part is the imaginary part. -/
def Phasor.imagPart (t : Phasor) : Phasor := ⟨t.im, t.re.opposite, t.ph⟩

/-- The sum of the real parts of a list of phasors. -/
def Cplx.sumReal : Cplx → RealExpr
  | [] => .rat 0
  | t :: z => .add t.realNum (Cplx.sumReal z)

/-- The in-phase component `re` of a complex value (00_scope R12). -/
def Cplx.reCoord (z : Cplx) : RealExpr := Cplx.sumReal z

/-- The quadrature component `im` of a complex value (00_scope R12). -/
def Cplx.imCoord (z : Cplx) : RealExpr := Cplx.sumReal (z.map Phasor.imagPart)

end Sys2Proof
end

