-- ==== Sys2Proof/Machine/ExactForms.lean ====
section
/-!
DEFINITION. The normal form of a number as a sum of cosine terms, and the test whether such a sum is 0 (41_constellation
R110: comparison is that of the reals, so equality has to be found, which no bounds can do).

Rationals, the square roots of 2, 3 and 5, and cosines of rational multiples of pi all live among the sums of roots of
unity, where equality to 0 is calculated; other numbers stand in a term as atoms.
-/

namespace Sys2Proof

/-- The number `coef * (the product of the atoms) * cos ph`. -/
structure CosTerm where
  coef : Rat
  atoms : List RealExpr
  ph : Angle
  deriving DecidableEq, Repr

/-- The sum of its terms. -/
abbrev CosSum := List CosTerm

/-- The cosine of `s * pi`, where it is rational. -/
def phaseCos (s : Rat) : Option Rat :=
  let r := s - 2 * ((s / 2).floor : Rat)
  if r = 0 then some 1
  else if r = 1 then some (-1)
  else if r = 1 / 2 ∨ r = 3 / 2 then some 0
  else if r = 1 / 3 ∨ r = 5 / 3 then some (1 / 2)
  else if r = 2 / 3 ∨ r = 4 / 3 then some (-1 / 2)
  else none

/-- The term with a rational cosine taken into its coefficient. -/
def CosTerm.norm (t : CosTerm) : CosTerm :=
  if t.ph.rad = 0 ∧ t.ph.more = [] then
    match phaseCos t.ph.pis with
    | some c => ⟨t.coef * c, t.atoms, Angle.zero⟩
    | none => t
  else t

/-- A term added to a sum: merged with a term of the same atoms and the same or the opposite phase, dropped where it
cancels. -/
def CosSum.insert (t : CosTerm) : CosSum → CosSum
  | [] => if t.coef = 0 then [] else [t]
  | u :: rest =>
    if t.atoms.isPerm u.atoms ∧ (t.ph = u.ph ∨ t.ph = u.ph.neg) then
      if t.coef + u.coef = 0 then rest else ⟨t.coef + u.coef, u.atoms, u.ph⟩ :: rest
    else u :: CosSum.insert t rest

/-- The sum of two sums. -/
def CosSum.add (s t : CosSum) : CosSum := s.foldr CosSum.insert t

/-- A rational as a sum. -/
def CosSum.const (q : Rat) : CosSum := if q = 0 then [] else [⟨q, [], Angle.zero⟩]

/-- A number that is not taken apart, as a sum. -/
def CosSum.atom (x : RealExpr) : CosSum := [⟨1, [x], Angle.zero⟩]

/-- A rational multiple of a sum. -/
def CosSum.scale (q : Rat) (s : CosSum) : CosSum :=
  if q = 0 then [] else s.map fun t => ⟨q * t.coef, t.atoms, t.ph⟩

/-- Whether the number is an atom that is not 0. -/
def RealExpr.neverZero : RealExpr → Bool
  | .pi => true
  | .exp _ => true
  | _ => false

/-- An atom times a product of atoms: two equal square roots of a rational give the rational, and an atom that is not 0
cancels its reciprocal. -/
def mulAtom (a : RealExpr) (l : List RealExpr) : Rat × List RealExpr :=
  if a.neverZero ∧ .inv a ∈ l then (1, l.erase (.inv a))
  else
    match a with
    | .root (.rat q) => if 0 ≤ q ∧ a ∈ l then (q, l.erase a) else (1, a :: l)
    | .inv b => if b.neverZero ∧ b ∈ l then (1, l.erase b) else (1, a :: l)
    | _ => (1, a :: l)

/-- The product of two products of atoms. -/
def mulAtoms (l m : List RealExpr) : Rat × List RealExpr :=
  l.foldr (fun a acc =>
    let r := mulAtom a acc.2
    (acc.1 * r.1, r.2)) (1, m)

/-- The product of two terms: `cos a * cos b = (cos (a + b) + cos (a - b))/2`. -/
def CosTerm.times (t u : CosTerm) : CosSum :=
  let m := mulAtoms t.atoms u.atoms
  let c := t.coef * u.coef * m.1 / 2
  CosSum.insert (CosTerm.norm ⟨c, m.2, t.ph.add u.ph⟩)
    (CosSum.insert (CosTerm.norm ⟨c, m.2, t.ph.add u.ph.neg⟩) [])

/-- The product of a term and a sum. -/
def CosSum.timesTerm (t : CosTerm) (s : CosSum) : CosSum := s.foldr (fun u acc => CosSum.add (t.times u) acc) []

/-- The product of two sums. -/
def CosSum.mul (s t : CosSum) : CosSum := s.foldr (fun u acc => CosSum.add (CosSum.timesTerm u t) acc) []

/-! ### The test for 0 -/

/-- The number `q * e^(j*s*pi)` added to a sum of such, given as pairs `(q, s)`: phases that differ by whole turns are
merged. -/
def addPhase (q s : Rat) : List (Rat × Rat) → List (Rat × Rat)
  | [] => if q = 0 then [] else [(q, s)]
  | (r, t) :: rest =>
    if ((s - t) / 2).den = 1 then (if r + q = 0 then rest else (r + q, t) :: rest) else (r, t) :: addPhase q s rest

/-- The sum times `e^(j*2*pi/p) - 1`, which is not 0 for `p` from 2 up. -/
def killRoots (p : Nat) (l : List (Rat × Rat)) : List (Rat × Rat) :=
  l.foldr (fun t acc => addPhase t.1 (t.2 + 2 / (p : Rat)) (addPhase (-t.1) t.2 acc)) []

/-- The primes that the test tries. -/
def testPrimes : List Nat := [2, 3, 5, 7, 11, 13, 17, 19, 23, 29, 31]

/-- The primes of `testPrimes` that divide the order of the roots of unity in the sum. -/
def orderPrimes (l : List (Rat × Rat)) : List Nat :=
  testPrimes.filter fun p => decide (p ∣ 2 * l.foldr (fun t n => Nat.lcm t.2.den n) 1)

/-- Whether the sum of roots of unity is 0: it is where it vanishes after the factors `e^(j*2*pi/p) - 1`. With `p` all
primes of the order, it vanishes then exactly where it is 0. -/
def unityZero (l : List (Rat × Rat)) : Bool :=
  let m := l.foldr (fun t acc => addPhase t.1 t.2 acc) []
  ((orderPrimes m).foldr killRoots m).isEmpty

/-- Whether two terms differ in their coefficients and in rational multiples of pi only. -/
def CosTerm.alike (t u : CosTerm) : Bool :=
  t.atoms.isPerm u.atoms && decide (t.ph.rad = u.ph.rad) && decide (t.ph.more = u.ph.more)

/-- Whether a sum of terms `coef * atoms * e^(j*ph)` is 0, group by group of like terms; at most `fuel` groups. -/
def groupsZero : Nat → List CosTerm → Bool
  | _, [] => true
  | 0, _ :: _ => false
  | fuel + 1, t :: l =>
    unityZero (((t :: l).filter (t.alike ·)).map fun u => (u.coef, u.ph.pis)) &&
      groupsZero fuel ((t :: l).filter (!t.alike ·))

/-- Whether the sum is 0: with `cos a = (e^(ja) + e^(-ja))/2`. Where it answers true the sum is 0; where it answers false
the sum is another number, or its terms are equal for a reason outside the roots of unity. -/
def CosSum.isZero (s : CosSum) : Bool :=
  groupsZero (2 * s.length + 1) (s ++ s.map fun t => ⟨t.coef, t.atoms, t.ph.neg⟩)

/-- The rational that a sum is, where it is spelled as one or tests as 0. -/
def CosSum.rational (s : CosSum) : Option Rat :=
  if s.isZero then some 0
  else
    match s with
    | [t] => if t.atoms = [] ∧ t.ph = Angle.zero then some t.coef else none
    | _ => none

/-! ### Square roots of rationals -/

/-- `(c, m)` with `n = c * c * m`: the square factors `p * p` taken out, at most `fuel` of them. -/
def takeSquares (p : Nat) : Nat → Nat → Nat × Nat
  | 0, n => (1, n)
  | fuel + 1, n =>
    if p * p ∣ n then
      let r := takeSquares p fuel (n / (p * p))
      (p * r.1, r.2)
    else (1, n)

/-- The square root of a prime, `2 cos(pi/4)`, `2 cos(pi/6)` and `4 cos(pi/5) - 1`, or an atom. -/
def rootPrime (p : Nat) : CosSum :=
  if p = 2 then [⟨2, [], ⟨0, 1 / 4, []⟩⟩]
  else if p = 3 then [⟨2, [], ⟨0, 1 / 6, []⟩⟩]
  else if p = 5 then [⟨4, [], ⟨0, 1 / 5, []⟩⟩, ⟨-1, [], Angle.zero⟩]
  else CosSum.atom (.root (.rat p))

/-- The square root of a natural, the primes of the list taken out of it. -/
def rootNat : List Nat → Nat → CosSum
  | [], n => if isqrt n * isqrt n = n then CosSum.const (isqrt n) else CosSum.atom (.root (.rat n))
  | p :: ps, n =>
    let r := takeSquares p n.log2 n
    if p ∣ r.2 then CosSum.scale r.1 (CosSum.mul (rootPrime p) (rootNat ps (r.2 / p)))
    else CosSum.scale r.1 (rootNat ps r.2)

/-- The square root of a rational `n/d`, `sqrt (n*d) / d`. The root of a negative number is 0. -/
def rootRat (q : Rat) : CosSum := CosSum.scale (1 / (q.den : Rat)) (rootNat [2, 3, 5, 7] (q.num.toNat * q.den))

/-! ### The normal form -/

/-- The reciprocal of a sum that the expression `x` spells: that of a rational, or an atom. -/
def CosSum.invOf (s : CosSum) (x : RealExpr) : CosSum :=
  match s.rational with
  | some q => CosSum.const q⁻¹
  | none => CosSum.atom (.inv x)

/-- The normal forms of a number and of its reciprocal. -/
def RealExpr.forms : RealExpr → CosSum × CosSum
  | .rat q => (CosSum.const q, CosSum.const q⁻¹)
  | .neg x => (CosSum.scale (-1) x.forms.1, CosSum.scale (-1) x.forms.2)
  | .add x y =>
    let s := CosSum.add x.forms.1 y.forms.1
    (s, s.invOf (.add x y))
  | .mul x y => (CosSum.mul x.forms.1 y.forms.1, CosSum.mul x.forms.2 y.forms.2)
  | .inv x => (x.forms.2, x.forms.1)
  | .root x =>
    match x.forms.1.rational with
    | some q => (rootRat q, CosSum.scale q⁻¹ (rootRat q))
    | none => (CosSum.atom (.root x), CosSum.atom (.inv (.root x)))
  | .cos x =>
    let s := CosSum.insert (CosTerm.norm ⟨1, [], Angle.ofNum x⟩) []
    (s, s.invOf (.cos x))
  | .sin x =>
    let s := CosSum.insert (CosTerm.norm ⟨1, [], (Angle.ofNum x).add ⟨0, -1 / 2, []⟩⟩) []
    (s, s.invOf (.sin x))
  | .pi => (CosSum.atom .pi, CosSum.atom (.inv .pi))
  | .free n => (CosSum.atom (.free n), CosSum.atom (.inv (.free n)))
  | .exp x => (CosSum.atom (.exp x), CosSum.atom (.inv (.exp x)))
  | .log x => if x.forms.1.isZero then ([], []) else (CosSum.atom (.log x), CosSum.atom (.inv (.log x)))
  | .arccos x => (CosSum.atom (.arccos x), CosSum.atom (.inv (.arccos x)))
  | .arctan x => (CosSum.atom (.arctan x), CosSum.atom (.inv (.arctan x)))

/-- The normal form of a number. -/
def RealExpr.form (x : RealExpr) : CosSum := x.forms.1

/-! ### Bounds -/

/-- Bounds of a sum of multiples of numbers. -/
def termsBounds (p : Nat) : List (Rat × RealExpr) → Option Bounds
  | [] => some (Bounds.point 0)
  | (q, x) :: rest => (x.bounds p).bind fun a => (termsBounds p rest).map fun b => Bounds.add (Bounds.scale q a) b

/-- Bounds of an angle in radians. -/
def Angle.bounds (p : Nat) (a : Angle) : Option Bounds :=
  (termsBounds p a.more).map fun b =>
    Bounds.add (Bounds.point a.rad) (if a.pis = 0 then b else Bounds.add (Bounds.scale a.pis (piBounds p)) b)

/-- Bounds of the cosine of an angle: it is at most 1 in magnitude in any case. -/
def Angle.cosBounds (p : Nat) (a : Angle) : Bounds :=
  if a = Angle.zero then Bounds.point 1
  else
    match a.bounds p with
    | some b => Bounds.cos p b
    | none => ⟨-1, 1⟩

/-- Bounds of a product of numbers. -/
def atomsBounds (p : Nat) : List RealExpr → Option Bounds
  | [] => some (Bounds.point 1)
  | x :: rest => (x.bounds p).bind fun a => (atomsBounds p rest).map fun b => Bounds.mul a b

/-- Bounds of a sum of terms. -/
def CosSum.bounds (p : Nat) : CosSum → Option Bounds
  | [] => some (Bounds.point 0)
  | t :: s => (atomsBounds p t.atoms).bind fun a => (CosSum.bounds p s).map fun b =>
      Bounds.add (Bounds.scale t.coef (Bounds.mul a (t.ph.cosBounds p))) b

end Sys2Proof
end

