-- ==== Sys2Proof/Machine/Values.lean ====
section
/-!
DEFINITION. What the numbers of the model stand for in the real and complex numbers (00_scope R12), and what the answers
of its comparisons say (41_constellation R110, R111).
-/

namespace Sys2Proof

/-- `rotor(theta) = cos theta + j * sin theta` (00_scope R12). -/
noncomputable def rotor (theta : ℝ) : ℂ := ⟨Real.cos theta, Real.sin theta⟩

/-- The real number that a sum of multiples of numbers stands for. -/
noncomputable def termsVal : List (Rat × RealExpr) → ℝ
  | [] => 0
  | (q, x) :: rest => (q : ℝ) * x.val + termsVal rest

/-- The real number an angle stands for, in radians. -/
noncomputable def Angle.val (a : Angle) : ℝ := (a.rad : ℝ) + (a.pis : ℝ) * Real.pi + termsVal a.more

/-- The complex number a phasor stands for. -/
noncomputable def Phasor.val (t : Phasor) : ℂ := ⟨t.re.val, t.im.val⟩ * rotor t.ph.val

/-- The complex number a complex value stands for. -/
noncomputable def Cplx.val (z : Cplx) : ℂ := (z.map Phasor.val).sum

/-- The real number a term stands for. -/
noncomputable def CosTerm.val (t : CosTerm) : ℝ := (t.coef : ℝ) * (t.atoms.map RealExpr.val).prod * Real.cos t.ph.val

/-- The real number a sum of terms stands for. -/
noncomputable def CosSum.val (s : CosSum) : ℝ := (s.map CosTerm.val).sum

/-- The real number `x` lies between the bounds. -/
def Bounds.Holds (b : Bounds) (x : ℝ) : Prop := (b.lo : ℝ) ≤ x ∧ x ≤ (b.hi : ℝ)

/-- The order names the sign of the number. -/
def SignOf : Ordering → ℝ → Prop
  | .lt, v => v < 0
  | .eq, v => v = 0
  | .gt, v => 0 < v

/-- The rounding says of the number what its name says (41_constellation R111). -/
def Rounding.Holds : Rounding → ℝ → Prop
  | .nearest n, x => |x - (n : ℝ)| < 1 / 2
  | .tie n, x => x = n + 1 / 2

end Sys2Proof
end

