-- ==== Sys2Proof/Laws/Angles.lean ====
section
/-!
SUPPORT. Rotors, and the normal form of an angle.
-/

namespace Sys2Proof

theorem rotor_add (a b : ℝ) : rotor (a + b) = rotor a * rotor b := by
  apply Complex.ext <;> simp [rotor, Real.cos_add, Real.sin_add]; ring

@[simp] theorem rotor_zero : rotor 0 = 1 := by
  apply Complex.ext <;> simp [rotor]

theorem rotor_mul_neg (a : ℝ) : rotor a * rotor (-a) = 1 := by
  rw [← rotor_add]; simp

theorem termsVal_addTerm (q : Rat) (x : RealExpr) (l : List (Rat × RealExpr)) :
    termsVal (addTerm q x l) = (q : ℝ) * x.val + termsVal l := by
  induction l with
  | nil => rfl
  | cons t l ih =>
    obtain ⟨r, y⟩ := t
    simp only [addTerm]
    split_ifs with h h'
    · have e : (r : ℝ) + q = 0 := by exact_mod_cast h'
      subst h
      simp only [termsVal]
      linear_combination (-x.val) * e
    · subst h
      simp only [termsVal]; push_cast; ring
    · simp only [termsVal, ih]; ring

@[simp] theorem Angle.val_add (a b : Angle) : (a.add b).val = a.val + b.val := by
  have h : ∀ l m : List (Rat × RealExpr),
      termsVal (l.foldr (fun t rest => addTerm t.1 t.2 rest) m) = termsVal l + termsVal m := by
    intro l m
    induction l with
    | nil => simp [termsVal]
    | cons t l ih =>
      obtain ⟨r, y⟩ := t
      simp only [List.foldr_cons, termsVal_addTerm, ih, termsVal]; ring
  simp only [Angle.add, Angle.val, h]; push_cast; ring

@[simp] theorem Angle.val_scale (q : Rat) (a : Angle) : (a.scale q).val = (q : ℝ) * a.val := by
  have h : ∀ l : List (Rat × RealExpr), termsVal (l.map fun t => (q * t.1, t.2)) = (q : ℝ) * termsVal l := by
    intro l
    induction l with
    | nil => simp [termsVal]
    | cons t l ih =>
      obtain ⟨r, y⟩ := t
      simp only [List.map_cons, termsVal, ih]; push_cast; ring
  simp only [Angle.scale, Angle.val]
  split_ifs with hq
  · simp [hq, termsVal]
  · rw [h]; push_cast; ring

@[simp] theorem Angle.val_neg (a : Angle) : a.neg.val = -a.val := by
  rw [Angle.neg, Angle.val_scale]; push_cast; ring

@[simp] theorem Angle.val_zero : Angle.zero.val = 0 := by simp [Angle.zero, Angle.val, termsVal]

theorem Angle.val_single (x : RealExpr) : (Angle.single x).val = x.val := by
  simp [Angle.single, Angle.val, termsVal]

theorem RealExpr.literal_spec : ∀ {x : RealExpr} {q : Rat}, x.literal = some q → x.val = q
  | .rat _, _, h => by simp only [literal, Option.some.injEq] at h; rw [← h]; rfl
  | .neg x, _, h => by
    obtain ⟨a, ha, rfl⟩ := Option.map_eq_some_iff.1 h
    rw [RealExpr.val, literal_spec ha]; push_cast; rfl
  | .add x y, _, h => by
    obtain ⟨a, ha, h'⟩ := Option.bind_eq_some_iff.1 h
    obtain ⟨b, hb, rfl⟩ := Option.map_eq_some_iff.1 h'
    rw [RealExpr.val, literal_spec ha, literal_spec hb]; push_cast; rfl
  | .mul x y, _, h => by
    obtain ⟨a, ha, h'⟩ := Option.bind_eq_some_iff.1 h
    obtain ⟨b, hb, rfl⟩ := Option.map_eq_some_iff.1 h'
    rw [RealExpr.val, literal_spec ha, literal_spec hb]; push_cast; rfl
  | .inv x, _, h => by
    obtain ⟨a, ha, rfl⟩ := Option.map_eq_some_iff.1 h
    rw [RealExpr.val, literal_spec ha]; push_cast; rfl

/-- The normal form of a number stands for the number. -/
@[simp] theorem Angle.val_ofNum (x : RealExpr) : (Angle.ofNum x).val = x.val := by
  induction x with
  | rat q => simp [Angle.ofNum, Angle.val, termsVal, RealExpr.val]
  | pi => simp [Angle.ofNum, Angle.val, termsVal, RealExpr.val]
  | neg x ih => rw [Angle.ofNum, Angle.val_neg, ih]; rfl
  | add x y ihx ihy => rw [Angle.ofNum, Angle.val_add, ihx, ihy]; rfl
  | mul x y ihx ihy =>
    simp only [Angle.ofNum]
    split
    · rw [Angle.val_scale, ihy, RealExpr.val, RealExpr.literal_spec (x := x) ‹_›]
    · rw [Angle.val_scale, ihx, RealExpr.val, RealExpr.literal_spec (x := y) ‹_›, mul_comm]
    · exact Angle.val_single _
  | inv x _ =>
    simp only [Angle.ofNum]
    split
    · rw [RealExpr.val, RealExpr.literal_spec ‹_›]; simp [Angle.val, termsVal]
    · exact Angle.val_single _
  | _ => exact Angle.val_single _

/-- The number that an angle spells is the one it stands for. -/
@[simp] theorem Angle.val_num (a : Angle) : a.num.val = a.val := by
  have h : ∀ l : List (Rat × RealExpr), (termsNum l).val = termsVal l := by
    intro l
    induction l with
    | nil => simp [termsNum, termsVal, RealExpr.val]
    | cons t l ih =>
      obtain ⟨r, y⟩ := t
      simp only [termsNum, termsVal, RealExpr.val, ih]
  simp only [Angle.num, Angle.val, RealExpr.val, h]

end Sys2Proof
end

