-- ==== Sys2Proof/Laws/Roots.lean ====
section
/-!
SUPPORT. What the integer square root computes.
-/

namespace Sys2Proof

theorem isqrtLoop_spec (n : Nat) : ∀ i r, r * r ≤ n → n < (r + 2 ^ i) * (r + 2 ^ i) →
    isqrtLoop n i r * isqrtLoop n i r ≤ n ∧ n < (isqrtLoop n i r + 1) * (isqrtLoop n i r + 1) := by
  intro i
  induction i with
  | zero => intro r h1 h2; simpa [isqrtLoop] using ⟨h1, h2⟩
  | succ i ih =>
    intro r h1 h2
    rw [isqrtLoop]
    split
    · refine ih _ ‹_› ?_
      have : r + 2 ^ i + 2 ^ i = r + 2 ^ (i + 1) := by ring
      rwa [this]
    · exact ih _ h1 (by omega)

theorem isqrt_spec (n : Nat) : isqrt n * isqrt n ≤ n ∧ n < (isqrt n + 1) * (isqrt n + 1) := by
  refine isqrtLoop_spec n _ 0 (Nat.zero_le _) ?_
  have h : n < 2 ^ (n.log2 + 1) := Nat.lt_log2_self
  calc n < 2 ^ (n.log2 + 1) := h
    _ ≤ 2 ^ (2 * (n.log2 / 2 + 1)) := Nat.pow_le_pow_right (by norm_num) (by omega)
    _ = _ := by rw [Nat.zero_add, ← pow_add]; congr 1; omega

end Sys2Proof
end

