-- ==== Sys2Proof/Laws/Bounds.lean ====
section
/-!
SUPPORT. The bounds are sound: each operation on bounds holds of the real operation.
-/

namespace Sys2Proof

theorem Bounds.holds_point (q : Rat) : (Bounds.point q).Holds (q : ℝ) := ⟨le_refl _, le_refl _⟩

theorem Bounds.holds_add {x y : Bounds} {u v : ℝ} (hu : x.Holds u) (hv : y.Holds v) :
    (Bounds.add x y).Holds (u + v) := by
  constructor
  · simpa [Bounds.add] using add_le_add hu.1 hv.1
  · simpa [Bounds.add] using add_le_add hu.2 hv.2

theorem Bounds.holds_scale {x : Bounds} {u : ℝ} (q : Rat) (hu : x.Holds u) :
    (Bounds.scale q x).Holds ((q : ℝ) * u) := by
  obtain ⟨h1, h2⟩ := hu
  unfold Bounds.scale
  split_ifs with h
  · have hq : (0:ℝ) ≤ q := by exact_mod_cast h
    constructor <;> push_cast
    · exact mul_le_mul_of_nonneg_left h1 hq
    · exact mul_le_mul_of_nonneg_left h2 hq
  · have hq : (q:ℝ) ≤ 0 := by exact_mod_cast (not_le.1 h).le
    constructor <;> push_cast
    · exact mul_le_mul_of_nonpos_left h2 hq
    · exact mul_le_mul_of_nonpos_left h1 hq

theorem Bounds.holds_square {x : Bounds} {u : ℝ} (hu : x.Holds u) : (Bounds.square x).Holds (u * u) := by
  obtain ⟨h1, h2⟩ := hu
  constructor
  · unfold Bounds.square
    dsimp only
    split_ifs with h h'
    · have : (0:ℝ) ≤ x.lo := by exact_mod_cast h
      push_cast; nlinarith
    · have : (x.hi:ℝ) ≤ 0 := by exact_mod_cast h'
      push_cast; nlinarith
    · simpa using mul_self_nonneg u
  · unfold Bounds.square
    dsimp only
    push_cast
    rcases le_total 0 u with hu0 | hu0
    · exact le_max_of_le_right (by nlinarith)
    · exact le_max_of_le_left (by nlinarith)

theorem Bounds.square_lo_nonneg (x : Bounds) : 0 ≤ (Bounds.square x).lo := by
  unfold Bounds.square
  dsimp only
  split_ifs
  · exact mul_self_nonneg _
  · exact mul_self_nonneg _
  · exact le_refl _

theorem roundDown_le (p : Nat) (x : Rat) : roundDown p x ≤ x := by
  have h : (0:ℚ) < ((2 ^ p : Nat) : ℚ) := by positivity
  unfold roundDown
  rw [Rat.mkRat_eq_div, div_le_iff₀ h]
  exact Rat.floor_le _

theorem le_roundUp (p : Nat) (x : Rat) : x ≤ roundUp p x := by
  have := roundDown_le p (-x)
  unfold roundUp
  linarith

theorem Bounds.holds_outward (p : Nat) {x : Bounds} {u : ℝ} (h : x.Holds u) : (x.outward p).Holds u :=
  ⟨(Rat.cast_le.2 (roundDown_le p _)).trans h.1, h.2.trans (Rat.cast_le.2 (le_roundUp p _))⟩

/-- A linear function of a number between bounds lies between its values at the bounds. -/
theorem mul_between {a b u : ℝ} (h1 : a ≤ u) (h2 : u ≤ b) (v : ℝ) : min (a * v) (b * v) ≤ u * v ∧ u * v ≤ max (a * v) (b * v) := by
  rcases le_total 0 v with hv | hv
  · exact ⟨min_le_of_left_le (mul_le_mul_of_nonneg_right h1 hv), le_max_of_le_right (mul_le_mul_of_nonneg_right h2 hv)⟩
  · exact ⟨min_le_of_right_le (mul_le_mul_of_nonpos_right h2 hv), le_max_of_le_left (mul_le_mul_of_nonpos_right h1 hv)⟩

theorem Bounds.holds_mul {x y : Bounds} {u v : ℝ} (hu : x.Holds u) (hv : y.Holds v) : (Bounds.mul x y).Holds (u * v) := by
  obtain ⟨l1, l2⟩ := mul_between hu.1 hu.2 v
  obtain ⟨m1, m2⟩ := mul_between hv.1 hv.2 x.lo
  obtain ⟨n1, n2⟩ := mul_between hv.1 hv.2 x.hi
  simp only [mul_comm _ (x.lo : ℝ), mul_comm _ (x.hi : ℝ)] at m1 m2 n1 n2
  constructor
  · simp only [Bounds.mul]; push_cast
    exact (min_le_min m1 n1).trans l1
  · simp only [Bounds.mul]; push_cast
    exact l2.trans (max_le_max m2 n2)

theorem Bounds.holds_neg {x : Bounds} {u : ℝ} (h : x.Holds u) : (Bounds.scale (-1) x).Holds (-u) := by
  have := Bounds.holds_scale (-1) h
  rwa [Rat.cast_neg, Rat.cast_one, neg_one_mul] at this

theorem Bounds.holds_inv {x y : Bounds} {u : ℝ} (h : x.Holds u) (hy : x.inv = some y) : y.Holds u⁻¹ := by
  obtain ⟨h1, h2⟩ := h
  unfold Bounds.inv at hy
  split_ifs at hy with hs
  simp only [Option.some.injEq] at hy
  subst hy
  simp only [Bounds.Holds]; push_cast
  rw [one_div, one_div]
  rcases hs with hs | hs
  · have hl : (0:ℝ) < x.lo := by exact_mod_cast hs
    exact ⟨inv_anti₀ (hl.trans_le h1) h2, inv_anti₀ hl h1⟩
  · have hl : (x.hi:ℝ) < 0 := by exact_mod_cast hs
    exact ⟨(inv_le_inv_of_neg hl (h2.trans_lt hl)).2 h2, (inv_le_inv_of_neg (h2.trans_lt hl) ((h1.trans h2).trans_lt hl)).2 h1⟩

/-! ### Square roots -/

/-- The integer root that bounds are made of, over the reals. -/
theorem rootSteps_spec (p : Nat) (q : Rat) :
    ((rootSteps p q : ℝ) / 2 ^ p ≤ Real.sqrt q) ∧ Real.sqrt q ≤ ((rootSteps p q : ℝ) + 1) / 2 ^ p := by
  have hp : (0:ℝ) < 2 ^ p := by positivity
  have h4 : ((4 ^ p : Nat) : ℝ) = 2 ^ p * 2 ^ p := by rw [← mul_pow]; norm_num
  set f := (q * ((4 ^ p : Nat) : Rat)).floor with hf
  have f1 : (f : ℝ) ≤ q * (2 ^ p * 2 ^ p) := by
    rw [← h4]; exact_mod_cast Rat.floor_le (q * ((4 ^ p : Nat) : Rat))
  have f2 : (q : ℝ) * (2 ^ p * 2 ^ p) < f + 1 := by
    have h : q * ((4 ^ p : Nat) : Rat) < (f : ℚ) + 1 := by linarith [Rat.lt_floor (x := q * ((4 ^ p : Nat) : Rat))]
    rw [← h4]; exact_mod_cast h
  obtain ⟨s1, s2⟩ := isqrt_spec f.toNat
  have hr : rootSteps p q = isqrt f.toNat := rfl
  rw [hr]
  set r := isqrt f.toNat
  have hr0 : (0:ℝ) ≤ r := Nat.cast_nonneg r
  have s1' : (r:ℝ) * r ≤ (f.toNat : ℝ) := by exact_mod_cast s1
  have s2' : (f.toNat : ℝ) + 1 ≤ ((r:ℝ) + 1) * (r + 1) := by exact_mod_cast s2
  rcases lt_or_ge f 0 with h | h
  · have h0 : f.toNat = 0 := Int.toNat_of_nonpos h.le
    rw [h0] at s1'
    have hr' : (r:ℝ) = 0 := by push_cast at s1'; nlinarith
    have hq : (q:ℝ) ≤ 0 := by
      have : (f:ℝ) + 1 ≤ 0 := by exact_mod_cast h
      by_contra! hq
      have : (0:ℝ) < q * (2 ^ p * 2 ^ p) := by positivity
      linarith
    rw [hr', Real.sqrt_eq_zero_of_nonpos hq]
    constructor
    · simp
    · positivity
  · have hc : ((f.toNat : ℕ) : ℝ) = f := by exact_mod_cast Int.toNat_of_nonneg h
    rw [hc] at s1' s2'
    constructor
    · apply Real.le_sqrt_of_sq_le
      rw [div_pow, div_le_iff₀ (by positivity)]
      nlinarith
    · rw [Real.sqrt_le_left (by positivity), div_pow, le_div_iff₀ (by positivity)]
      nlinarith

theorem Bounds.holds_root (p : Nat) {x : Bounds} {u : ℝ} (h : x.Holds u) : (Bounds.root p x).Holds (Real.sqrt u) := by
  constructor
  · refine le_trans ?_ (Real.sqrt_le_sqrt h.1)
    simp only [Bounds.root, Rat.mkRat_eq_div]; push_cast
    exact (rootSteps_spec p x.lo).1
  · refine (Real.sqrt_le_sqrt h.2).trans ?_
    simp only [Bounds.root, Rat.mkRat_eq_div]; push_cast
    exact (rootSteps_spec p x.hi).2

/-! ### The exponential and the logarithm -/

theorem Bounds.holds_squares (p : Nat) : ∀ (n : Nat) {c : Bounds} {v : ℝ}, c.Holds v →
    (Bounds.squares p n c).Holds (v ^ (2 ^ n))
  | 0, c, v, h => by simpa [Bounds.squares] using h
  | n + 1, c, v, h => by
    have := Bounds.holds_squares p n (Bounds.holds_outward p (Bounds.holds_square h))
    rw [Bounds.squares, pow_succ 2 n, mul_comm (2 ^ n) 2, pow_mul, sq]
    exact this

theorem Bounds.holds_exp {p : Nat} {x y : Bounds} {u : ℝ} (h : x.Holds u) (hy : Bounds.exp p x = some y) :
    y.Holds (Real.exp u) := by
  unfold Bounds.exp at hy
  dsimp only at hy
  set k := p + 2 * x.magnitude + 8
  have hs := Bounds.holds_scale (1 / ((2 ^ k : Nat) : Rat)) h
  set z := Bounds.scale (1 / ((2 ^ k : Nat) : Rat)) x
  set v : ℝ := ((1 / ((2 ^ k : Nat) : Rat) : Rat) : ℝ) * u with hv
  split_ifs at hy with hc
  simp only [Option.some.injEq] at hy
  subst hy
  have e : Real.exp u = Real.exp v ^ (2 ^ k) := by
    rw [← Real.exp_nat_mul, hv]; congr 1; push_cast; field_simp
  rw [e]
  apply Bounds.holds_squares
  have hlt : (z.hi : ℝ) < 1 := by exact_mod_cast hc.2
  constructor
  · push_cast
    linarith [Real.add_one_le_exp v, hs.1]
  · push_cast
    have h1 : 1 - v ≤ Real.exp (-v) := by linarith [Real.add_one_le_exp (-v)]
    have h2 : 0 < 1 - (z.hi : ℝ) := by linarith
    have h3 : 1 - (z.hi : ℝ) ≤ Real.exp (-v) := by linarith [hs.2]
    rw [Real.exp_neg] at h3
    rw [one_div]
    have := inv_anti₀ h2 h3
    rwa [inv_inv] at this

theorem Bounds.holds_roots (p : Nat) : ∀ (n : Nat) {c : Bounds} {v : ℝ}, 0 < v → c.Holds v →
    ∃ w : ℝ, 0 < w ∧ (Bounds.roots p n c).Holds w ∧ Real.log v = 2 ^ n * Real.log w
  | 0, c, v, hv, h => ⟨v, hv, h, by simp⟩
  | n + 1, c, v, hv, h => by
    obtain ⟨w, h1, h2, h3⟩ := Bounds.holds_roots p n (Real.sqrt_pos.2 hv) (Bounds.holds_root p h)
    refine ⟨w, h1, h2, ?_⟩
    rw [Real.log_sqrt hv.le] at h3
    rw [pow_succ]; linarith

theorem Bounds.holds_logPos {p : Nat} {x y : Bounds} {u : ℝ} (h : x.Holds u) (hy : Bounds.logPos p x = some y) :
    y.Holds (Real.log u) := by
  unfold Bounds.logPos at hy
  dsimp only at hy
  set k := p + 24
  split_ifs at hy with hc
  simp only [Option.some.injEq] at hy
  have hu : 0 < u := lt_of_lt_of_le (by exact_mod_cast hc.1) h.1
  obtain ⟨w, h1, h2, h3⟩ := Bounds.holds_roots (2 * k + 32) k hu h
  set z := Bounds.roots (2 * k + 32) k x
  have hz : (0:ℝ) < z.lo := by exact_mod_cast hc.2
  rw [h3, ← hy]
  have := Bounds.holds_scale (x := ⟨1 - 1 / z.lo, z.hi - 1⟩) (u := Real.log w) ((2 ^ k : Nat) : Rat) ⟨?_, ?_⟩
  · convert this using 1; push_cast; ring
  · push_cast
    have := inv_anti₀ hz h2.1
    rw [one_div]
    linarith [Real.one_sub_inv_le_log_of_pos h1]
  · push_cast
    linarith [Real.log_le_sub_one_of_pos h1, h2.2]

theorem Bounds.holds_log {p : Nat} {x y : Bounds} {u : ℝ} (h : x.Holds u) (hy : Bounds.log p x = some y) :
    y.Holds (Real.log u) := by
  unfold Bounds.log at hy
  split_ifs at hy
  · rw [← Real.log_neg_eq_log]
    exact Bounds.holds_logPos (Bounds.holds_neg h) hy
  · exact Bounds.holds_logPos h hy

/-! ### Arc cosine and pi -/

theorem Bounds.holds_clip {x : Bounds} {u : ℝ} (h : x.Holds u) : x.clip.Holds (Real.cos (Real.arccos u)) := by
  obtain ⟨h1, h2⟩ := h
  simp only [Bounds.clip, Bounds.Holds]; push_cast
  rcases le_total u (-1) with hu | hu
  · rw [Real.arccos_of_le_neg_one hu, Real.cos_pi]
    exact ⟨min_le_of_right_le (max_le (h1.trans hu) le_rfl), le_max_left _ _⟩
  · rcases le_total 1 u with hu' | hu'
    · rw [Real.arccos_of_one_le hu', Real.cos_zero]
      exact ⟨min_le_left _ _, le_max_of_le_right (le_min (hu'.trans h2) le_rfl)⟩
    · rw [Real.cos_arccos hu hu']
      exact ⟨min_le_of_right_le (max_le h1 hu), le_max_of_le_right (le_min h2 hu')⟩

theorem cosHalves_holds (p : Nat) : ∀ (n : Nat) {c : Bounds} {a : ℝ}, 0 ≤ a → a ≤ Real.pi → c.Holds (Real.cos a) →
    (cosHalves p n c).Holds (Real.cos (a / 2 ^ n))
  | 0, c, a, _, _, h => by simpa [cosHalves] using h
  | n + 1, c, a, h0, hpi, h => by
    have e : Real.cos (a / 2) = Real.sqrt (((1 / 2 : Rat) : ℝ) * (((1 : Rat) : ℝ) + Real.cos a)) := by
      rw [Real.cos_half (by linarith [Real.pi_pos]) hpi]; congr 1; push_cast; ring
    have h' := Bounds.holds_root p (Bounds.holds_scale (1 / 2) (Bounds.holds_add (Bounds.holds_point 1) h))
    rw [← e] at h'
    have := cosHalves_holds p n (by linarith) (by linarith) h'
    rw [cosHalves, pow_succ, mul_comm, ← div_div]
    exact this

/-- Bounds of a small angle from those of its cosine: it lies between its sine and its tangent. -/
theorem angle_between (q : Nat) {c : Bounds} {b : ℝ} (h0 : 0 ≤ b) (hpi : b ≤ Real.pi) (hc : c.Holds (Real.cos b))
    (hl : 0 < c.lo) {s : Bounds}
    (hs : s = Bounds.root q (Bounds.add (Bounds.point 1) (Bounds.scale (-1) (Bounds.square c)))) :
    Bounds.Holds ⟨s.lo, s.hi / c.lo⟩ b := by
  have h := Bounds.holds_root q (Bounds.holds_add (Bounds.holds_point 1) (Bounds.holds_neg (Bounds.holds_square hc)))
  have e : Real.sqrt (((1 : Rat) : ℝ) + -(Real.cos b * Real.cos b)) = Real.sin b := by
    rw [Real.sin_eq_sqrt_one_sub_cos_sq h0 hpi]; congr 1; push_cast; ring
  rw [e, ← hs] at h
  have hl' : (0:ℝ) < c.lo := by exact_mod_cast hl
  have hcos : 0 < Real.cos b := hl'.trans_le hc.1
  have hhalf : b < Real.pi / 2 := by
    by_contra! hge
    linarith [Real.cos_nonpos_of_pi_div_two_le_of_le hge (by linarith)]
  have hsin := Real.sin_nonneg_of_nonneg_of_le_pi h0 hpi
  refine ⟨h.1.trans (Real.sin_le h0), (Real.le_tan h0 hhalf).trans ?_⟩
  rw [Real.tan_eq_sin_div_cos]
  push_cast
  exact div_le_div₀ (hsin.trans h.2) h.2 hl' hc.1

theorem Bounds.holds_arccos {p : Nat} {x y : Bounds} {u : ℝ} (h : x.Holds u) (hy : Bounds.arccos p x = some y) :
    y.Holds (Real.arccos u) := by
  unfold Bounds.arccos at hy
  dsimp only at hy
  generalize p / 2 + 8 = k at hy
  generalize 2 * k + 2 * p + 16 = q at hy
  have ha0 := Real.arccos_nonneg u
  have hapi := Real.arccos_le_pi u
  have hc := cosHalves_holds q k ha0 hapi (Bounds.holds_clip h)
  generalize cosHalves q k x.clip = c at hy hc
  split_ifs at hy with hl
  simp only [Option.some.injEq] at hy
  have hb := angle_between q (by positivity) ((div_le_self ha0 (one_le_pow₀ (by norm_num))).trans hapi) hc hl rfl
  have e : Real.arccos u = (((2 ^ k : Nat) : Rat) : ℝ) * (Real.arccos u / 2 ^ k) := by push_cast; field_simp
  rw [e, ← hy]
  exact Bounds.holds_scale _ hb

theorem piDecimals_holds : piDecimals.Holds Real.pi := by
  have h1 := Real.pi_gt_d20
  have h2 := Real.pi_lt_d20
  constructor <;> simp only [piDecimals] <;> push_cast <;> linarith

theorem piBounds_holds (p : Nat) : (piBounds p).Holds Real.pi := by
  unfold piBounds
  split_ifs
  · exact piDecimals_holds
  · cases h : Bounds.arccos p (Bounds.point (-1)) with
    | none => exact piDecimals_holds
    | some b =>
      have := Bounds.holds_arccos (Bounds.holds_point (-1)) h
      rwa [Rat.cast_neg, Rat.cast_one, Real.arccos_neg_one] at this

/-! ### Cosine, sine and arc tangent -/

theorem cosDouble_holds (p : Nat) {c : Bounds} {y : ℝ} (h : c.Holds (Real.cos y)) :
    (cosDouble p c).Holds (Real.cos (2 * y)) := by
  obtain ⟨h1, h2⟩ := Bounds.holds_square h
  have e : Real.cos (2 * y) = 2 * (Real.cos y * Real.cos y) - 1 := by rw [Real.cos_two_mul]; ring
  rw [e]
  constructor
  · refine le_trans (Rat.cast_le.2 (roundDown_le p _)) ?_
    push_cast; linarith
  · refine le_trans ?_ (Rat.cast_le.2 (le_roundUp p _))
    push_cast; linarith

theorem cosDoubles_holds (p : Nat) : ∀ (n : Nat) {c : Bounds} {y : ℝ}, c.Holds (Real.cos y) →
    (cosDoubles p n c).Holds (Real.cos (2 ^ n * y))
  | 0, c, y, h => by simpa [cosDoubles] using h
  | n + 1, c, y, h => by
    have := cosDoubles_holds p n (cosDouble_holds p h)
    rw [cosDoubles, pow_succ, mul_assoc]
    exact this

theorem cosSmall_holds (p : Nat) {b : Bounds} {y : ℝ} (h : b.Holds y) : (cosSmall p b).Holds (Real.cos y) := by
  obtain ⟨h1, h2⟩ := Bounds.holds_square h
  have h0 := Bounds.square_lo_nonneg b
  unfold cosSmall
  dsimp only
  split_ifs with hs
  · have hs' : ((Bounds.square b).hi : ℝ) ≤ 1 := by exact_mod_cast hs
    have hy : |y| ≤ 1 := by
      rw [← sq_le_one_iff_abs_le_one]; nlinarith
    have hb := abs_le.1 (Real.cos_bound hy)
    have h4 : |y| ^ 4 = (y * y) * (y * y) := by
      rw [show |y| ^ 4 = (|y| ^ 2) ^ 2 by ring, sq_abs]; ring
    rw [h4] at hb
    have hyy : 0 ≤ y * y := mul_self_nonneg y
    have hm : (y * y) * (y * y) ≤ (Bounds.square b).hi * (Bounds.square b).hi := by nlinarith
    constructor
    · refine le_trans (Rat.cast_le.2 (roundDown_le p _)) ?_
      push_cast; nlinarith [hb.1]
    · refine le_trans ?_ (Rat.cast_le.2 (le_roundUp p _))
      push_cast; nlinarith [hb.2]
  · constructor <;> push_cast
    · exact Real.neg_one_le_cos y
    · exact Real.cos_le_one y

theorem Bounds.holds_cos (p : Nat) {x : Bounds} {u : ℝ} (h : x.Holds u) : (Bounds.cos p x).Holds (Real.cos u) := by
  unfold Bounds.cos
  dsimp only
  set n := p / 2 + 2 * x.magnitude + 6
  have := cosDoubles_holds (2 * n + p + 8) n
    (cosSmall_holds (2 * n + p + 8) (Bounds.holds_scale (1 / ((2 ^ n : Nat) : Rat)) h))
  have e : (2:ℝ) ^ n * (((1 / ((2 ^ n : Nat) : Rat) : Rat) : ℝ) * u) = u := by
    push_cast; field_simp
  rwa [e] at this

theorem Bounds.holds_sin (p : Nat) {x : Bounds} {u : ℝ} (h : x.Holds u) : (Bounds.sin p x).Holds (Real.sin u) := by
  rw [← Real.cos_sub_pi_div_two]
  have := Bounds.holds_cos p (Bounds.holds_add h (Bounds.holds_scale (-1 / 2) (piBounds_holds p)))
  unfold Bounds.sin
  convert this using 2; push_cast; ring

theorem Bounds.holds_arctan {p : Nat} {x y : Bounds} {u : ℝ} (h : x.Holds u) (hy : Bounds.arctan p x = some y) :
    y.Holds (Real.arctan u) := by
  unfold Bounds.arctan at hy
  simp only [Option.bind_eq_some_iff, Option.map_eq_some_iff] at hy
  obtain ⟨r, hr, a, ha, rfl⟩ := hy
  have h1 := Bounds.holds_root (2 * p + 8) (Bounds.holds_add (Bounds.holds_point 1) (Bounds.holds_square h))
  have h2 := Bounds.holds_arccos (Bounds.holds_mul h (Bounds.holds_inv h1 hr)) ha
  have h3 := Bounds.holds_add (Bounds.holds_scale (1 / 2) (piBounds_holds p)) (Bounds.holds_neg h2)
  rw [Real.arctan_eq_arcsin]
  convert h3 using 1
  rw [Real.arccos]
  push_cast
  rw [div_eq_mul_inv, sq]
  ring

/-- The bounds of an expression are bounds of the number that it spells. -/
theorem RealExpr.bounds_holds (p : Nat) : ∀ {x : RealExpr} {b : Bounds}, x.bounds p = some b → b.Holds x.val := by
  intro x
  induction x with
  | rat q => intro b h; simp only [RealExpr.bounds, Option.some.injEq] at h; subst h; exact Bounds.holds_point q
  | pi => intro b h; simp only [RealExpr.bounds, Option.some.injEq] at h; subst h; exact piBounds_holds p
  | free n => intro b h; simp [RealExpr.bounds] at h
  | neg x ih =>
    intro b h
    simp only [RealExpr.bounds, Option.map_eq_some_iff] at h
    obtain ⟨a, ha, rfl⟩ := h
    exact Bounds.holds_neg (ih ha)
  | add x y ihx ihy =>
    intro b h
    simp only [RealExpr.bounds, Option.bind_eq_some_iff, Option.map_eq_some_iff] at h
    obtain ⟨a, ha, c, hc, rfl⟩ := h
    exact Bounds.holds_add (ihx ha) (ihy hc)
  | mul x y ihx ihy =>
    intro b h
    simp only [RealExpr.bounds, Option.bind_eq_some_iff, Option.map_eq_some_iff] at h
    obtain ⟨a, ha, c, hc, rfl⟩ := h
    exact Bounds.holds_mul (ihx ha) (ihy hc)
  | root x ih =>
    intro b h
    simp only [RealExpr.bounds, Option.map_eq_some_iff] at h
    obtain ⟨a, ha, rfl⟩ := h
    exact Bounds.holds_root p (ih ha)
  | cos x ih =>
    intro b h
    simp only [RealExpr.bounds, Option.map_eq_some_iff] at h
    obtain ⟨a, ha, rfl⟩ := h
    exact Bounds.holds_cos p (ih ha)
  | sin x ih =>
    intro b h
    simp only [RealExpr.bounds, Option.map_eq_some_iff] at h
    obtain ⟨a, ha, rfl⟩ := h
    exact Bounds.holds_sin p (ih ha)
  | inv x ih =>
    intro b h
    obtain ⟨a, ha, h'⟩ := Option.bind_eq_some_iff.1 h
    exact Bounds.holds_inv (ih ha) h'
  | exp x ih =>
    intro b h
    obtain ⟨a, ha, h'⟩ := Option.bind_eq_some_iff.1 h
    exact Bounds.holds_exp (ih ha) h'
  | log x ih =>
    intro b h
    obtain ⟨a, ha, h'⟩ := Option.bind_eq_some_iff.1 h
    exact Bounds.holds_log (ih ha) h'
  | arccos x ih =>
    intro b h
    obtain ⟨a, ha, h'⟩ := Option.bind_eq_some_iff.1 h
    exact Bounds.holds_arccos (ih ha) h'
  | arctan x ih =>
    intro b h
    obtain ⟨a, ha, h'⟩ := Option.bind_eq_some_iff.1 h
    exact Bounds.holds_arctan (ih ha) h'

/-! ### What bounds decide -/

theorem Bounds.sign_spec {x : Bounds} {v : ℝ} (h : x.Holds v) {o : Ordering} (ho : x.sign = some o) : SignOf o v := by
  unfold Bounds.sign at ho
  split_ifs at ho with h1 h2 <;> simp only [Option.some.injEq] at ho <;> subst ho
  · exact lt_of_lt_of_le (by exact_mod_cast h1) h.1
  · exact lt_of_le_of_lt h.2 (by exact_mod_cast h2)

theorem Bounds.base_spec {x : Bounds} {v : ℝ} (h : x.Holds v) {n : Int} (hn : x.base = some n) :
    (n : ℝ) ≤ v ∧ v < n + 2 := by
  unfold Bounds.base at hn
  split_ifs at hn with hlt
  simp only [Option.some.injEq] at hn
  subst hn
  have e1 : ((x.lo.floor : ℤ) : ℝ) ≤ x.lo := by exact_mod_cast Rat.floor_le x.lo
  have e2 : (x.hi : ℝ) < (x.lo.floor : ℝ) + 2 := by exact_mod_cast hlt
  exact ⟨e1.trans h.1, h.2.trans_lt e2⟩

end Sys2Proof
end

