-- ==== Sys2Proof/Laws/ExactForms.lean ====
section
/-!
SUPPORT. The normal form of a number is the number, a sum that tests as 0 is 0, and the bounds of a sum are sound.
-/

namespace Sys2Proof

/-! ### Terms and sums -/

theorem Angle.val_pis (s : Rat) : (⟨0, s, []⟩ : Angle).val = (s : ℝ) * Real.pi := by simp [Angle.val, termsVal]

@[simp] theorem CosSum.val_nil : CosSum.val [] = 0 := rfl

@[simp] theorem CosSum.val_cons (t : CosTerm) (s : CosSum) : CosSum.val (t :: s) = t.val + CosSum.val s := by
  simp [CosSum.val]

/-- A whole number of turns does not change a rotor. -/
theorem rotor_turns {s t : Rat} (h : ((s - t) / 2).den = 1) : rotor ((s : ℝ) * Real.pi) = rotor ((t : ℝ) * Real.pi) := by
  obtain ⟨n, hn⟩ : ∃ n : ℤ, (s - t) / 2 = n := ⟨((s - t) / 2).num, (Rat.den_eq_one_iff _).1 h |>.symm⟩
  have e : (s : ℝ) * Real.pi = (t : ℝ) * Real.pi + (n : ℝ) * (2 * Real.pi) := by
    have : s = t + 2 * n := by linarith
    rw [this]; push_cast; ring
  rw [e]; unfold rotor; rw [Real.cos_add_int_mul_two_pi, Real.sin_add_int_mul_two_pi]

theorem phaseCos_spec {s c : Rat} (h : phaseCos s = some c) : Real.cos ((s : ℝ) * Real.pi) = c := by
  unfold phaseCos at h
  dsimp only at h
  generalize (s / 2).floor = n at h
  have e : Real.cos ((s : ℝ) * Real.pi) = Real.cos (((s - 2 * (n : Rat) : Rat) : ℝ) * Real.pi) := by
    rw [← Real.cos_add_int_mul_two_pi (((s - 2 * (n : Rat) : Rat) : ℝ) * Real.pi) n]; congr 1; push_cast; ring
  rw [e]
  generalize s - 2 * (n : Rat) = r at h
  have flip : ∀ a b : Rat, a + b = 2 → Real.cos ((a : ℝ) * Real.pi) = Real.cos ((b : ℝ) * Real.pi) := by
    intro a b hab
    have : (a : ℝ) * Real.pi = 2 * Real.pi - (b : ℝ) * Real.pi := by
      have : (a : ℝ) = 2 - b := by rw [eq_sub_iff_add_eq]; exact_mod_cast hab
      rw [this]; ring
    rw [this, Real.cos_two_pi_sub]
  have c3 : Real.cos (((2 / 3 : Rat) : ℝ) * Real.pi) = ((-1 / 2 : Rat) : ℝ) := by
    rw [show ((2 / 3 : Rat) : ℝ) * Real.pi = Real.pi - Real.pi / 3 by push_cast; ring, Real.cos_pi_sub,
      Real.cos_pi_div_three]
    push_cast; ring
  have c2 : Real.cos (((1 / 2 : Rat) : ℝ) * Real.pi) = ((0 : Rat) : ℝ) := by
    rw [show ((1 / 2 : Rat) : ℝ) * Real.pi = Real.pi / 2 by push_cast; ring, Real.cos_pi_div_two]; simp
  have c6 : Real.cos (((1 / 3 : Rat) : ℝ) * Real.pi) = ((1 / 2 : Rat) : ℝ) := by
    rw [show ((1 / 3 : Rat) : ℝ) * Real.pi = Real.pi / 3 by push_cast; ring, Real.cos_pi_div_three]; push_cast; ring
  split_ifs at h with h1 h2 h3 h4 h5 <;> simp only [Option.some.injEq] at h <;> subst h
  · simp [h1]
  · simp [h2]
  · rcases h3 with rfl | rfl
    · exact c2
    · rw [flip _ (1 / 2) (by norm_num)]; exact c2
  · rcases h4 with rfl | rfl
    · exact c6
    · rw [flip _ (1 / 3) (by norm_num)]; exact c6
  · rcases h5 with rfl | rfl
    · exact c3
    · rw [flip _ (2 / 3) (by norm_num)]; exact c3

@[simp] theorem CosTerm.val_norm (t : CosTerm) : t.norm.val = t.val := by
  unfold CosTerm.norm
  split_ifs with h
  · split
    · rename_i c hc
      have e : t.ph = ⟨0, t.ph.pis, []⟩ := by rw [← h.1, ← h.2]
      have hcos : Real.cos t.ph.val = c := by rw [e, Angle.val_pis]; exact phaseCos_spec hc
      simp only [CosTerm.val, Angle.val_zero, Real.cos_zero, hcos]; push_cast; ring
    · rfl
  · rfl

theorem atoms_prod_eq {l m : List RealExpr} (h : l.isPerm m = true) :
    (l.map RealExpr.val).prod = (m.map RealExpr.val).prod := ((List.isPerm_iff.1 h).map _).prod_eq

@[simp] theorem CosSum.val_insert (t : CosTerm) (s : CosSum) : (CosSum.insert t s).val = t.val + s.val := by
  induction s with
  | nil =>
    simp only [CosSum.insert]
    split_ifs with h
    · simp [CosTerm.val, h]
    · simp
  | cons u rest ih =>
    simp only [CosSum.insert]
    split_ifs with h h'
    all_goals try rw [CosSum.val_cons, CosSum.val_cons, ih]; ring
    all_goals
      have hc : Real.cos t.ph.val = Real.cos u.ph.val := by
        rcases h.2 with e | e
        · rw [e]
        · rw [e, Angle.val_neg, Real.cos_neg]
      have hp := atoms_prod_eq h.1
    · have e : (t.coef : ℝ) + u.coef = 0 := by exact_mod_cast h'
      rw [CosSum.val_cons, CosTerm.val, CosTerm.val, hc, hp]
      linear_combination (-((u.atoms.map RealExpr.val).prod * Real.cos u.ph.val)) * e
    · rw [CosSum.val_cons, CosSum.val_cons]
      simp only [CosTerm.val, hc, hp]; push_cast; ring

@[simp] theorem CosSum.val_add (s t : CosSum) : (CosSum.add s t).val = s.val + t.val := by
  unfold CosSum.add
  induction s with
  | nil => simp
  | cons u s ih => rw [List.foldr_cons, CosSum.val_insert, ih, CosSum.val_cons]; ring

@[simp] theorem CosSum.val_const (q : Rat) : (CosSum.const q).val = q := by
  unfold CosSum.const
  split_ifs with h
  · simp [h]
  · simp [CosTerm.val]

@[simp] theorem CosSum.val_atom (x : RealExpr) : (CosSum.atom x).val = x.val := by simp [CosSum.atom, CosTerm.val]

@[simp] theorem CosSum.val_scale (q : Rat) (s : CosSum) : (CosSum.scale q s).val = (q : ℝ) * s.val := by
  unfold CosSum.scale
  split_ifs with h
  · simp [h]
  · induction s with
    | nil => simp
    | cons t s ih => rw [List.map_cons, CosSum.val_cons, ih, CosSum.val_cons]; simp only [CosTerm.val]; push_cast; ring

theorem RealExpr.neverZero_spec {x : RealExpr} (h : x.neverZero = true) : x.val ≠ 0 := by
  cases x with
  | pi => exact Real.pi_ne_zero
  | exp x => exact Real.exp_ne_zero _
  | _ => simp [RealExpr.neverZero] at h

theorem atoms_prod_erase {a : RealExpr} {l : List RealExpr} (h : a ∈ l) :
    (l.map RealExpr.val).prod = a.val * ((l.erase a).map RealExpr.val).prod := by
  have hperm := ((List.perm_cons_erase h).map RealExpr.val).prod_eq
  rwa [List.map_cons, List.prod_cons] at hperm

theorem mulAtom_val (a : RealExpr) (l : List RealExpr) :
    ((mulAtom a l).1 : ℝ) * ((mulAtom a l).2.map RealExpr.val).prod = a.val * (l.map RealExpr.val).prod := by
  have plain : ((1 : Rat) : ℝ) * ((a :: l).map RealExpr.val).prod = a.val * (l.map RealExpr.val).prod := by simp
  unfold mulAtom
  split_ifs with h
  · have hn := RealExpr.neverZero_spec h.1
    rw [atoms_prod_erase h.2, RealExpr.val, ← mul_assoc, mul_inv_cancel₀ hn]; push_cast; rfl
  · split
    · rename_i q
      split_ifs with hq
      · have hq0 : (0:ℝ) ≤ q := by exact_mod_cast hq.1
        rw [atoms_prod_erase hq.2, ← mul_assoc, RealExpr.val, RealExpr.val, Real.mul_self_sqrt hq0]
      · exact plain
    · split_ifs with hb
      · have hn := RealExpr.neverZero_spec hb.1
        rw [atoms_prod_erase hb.2, RealExpr.val, ← mul_assoc, inv_mul_cancel₀ hn]; push_cast; rfl
      · exact plain
    · exact plain

theorem mulAtoms_val (l m : List RealExpr) : ((mulAtoms l m).1 : ℝ) * ((mulAtoms l m).2.map RealExpr.val).prod =
    (l.map RealExpr.val).prod * (m.map RealExpr.val).prod := by
  unfold mulAtoms
  induction l with
  | nil => simp
  | cons a l ih =>
    rw [List.foldr_cons, List.map_cons, List.prod_cons, mul_assoc]
    generalize List.foldr _ _ l = acc at ih ⊢
    dsimp only
    push_cast
    rw [mul_assoc, mulAtom_val, ← ih]; ring

@[simp] theorem CosTerm.val_times (t u : CosTerm) : (t.times u).val = t.val * u.val := by
  simp only [CosTerm.times, CosSum.val_insert, CosTerm.val_norm, CosSum.val_nil]
  simp only [CosTerm.val, Angle.val_add, Angle.val_neg, Real.cos_add, Real.cos_neg, Real.sin_neg]
  have h := mulAtoms_val t.atoms u.atoms
  push_cast
  linear_combination (t.coef * u.coef * Real.cos t.ph.val * Real.cos u.ph.val : ℝ) * h

theorem CosSum.val_timesTerm (t : CosTerm) (s : CosSum) : (CosSum.timesTerm t s).val = t.val * s.val := by
  unfold CosSum.timesTerm
  induction s with
  | nil => simp
  | cons u s ih => rw [List.foldr_cons, CosSum.val_add, CosTerm.val_times, ih, CosSum.val_cons]; ring

@[simp] theorem CosSum.val_mul (s t : CosSum) : (CosSum.mul s t).val = s.val * t.val := by
  unfold CosSum.mul
  induction s with
  | nil => simp
  | cons u s ih => rw [List.foldr_cons, CosSum.val_add, CosSum.val_timesTerm, ih, CosSum.val_cons]; ring

/-! ### The test for 0 -/

/-- The complex number that pairs `(q, s)` stand for, the sum of `q * e^(j*s*pi)`. -/
noncomputable def phasesVal (l : List (Rat × Rat)) : ℂ :=
  (l.map fun t => ((t.1 : ℝ) : ℂ) * rotor ((t.2 : ℝ) * Real.pi)).sum

@[simp] theorem phasesVal_nil : phasesVal [] = 0 := rfl

@[simp] theorem phasesVal_cons (t : Rat × Rat) (l : List (Rat × Rat)) :
    phasesVal (t :: l) = ((t.1 : ℝ) : ℂ) * rotor ((t.2 : ℝ) * Real.pi) + phasesVal l := by simp [phasesVal]

theorem addPhase_val (q s : Rat) (l : List (Rat × Rat)) :
    phasesVal (addPhase q s l) = ((q : ℝ) : ℂ) * rotor ((s : ℝ) * Real.pi) + phasesVal l := by
  induction l with
  | nil =>
    simp only [addPhase]
    split_ifs with h
    · simp [h]
    · simp
  | cons u rest ih =>
    obtain ⟨r, t⟩ := u
    simp only [addPhase]
    split_ifs with h h'
    · have e : ((r : ℝ) : ℂ) + ((q : ℝ) : ℂ) = 0 := by exact_mod_cast h'
      rw [phasesVal_cons, rotor_turns h]
      linear_combination (-rotor ((t : ℝ) * Real.pi)) * e
    · rw [phasesVal_cons, phasesVal_cons, rotor_turns h]; push_cast; ring
    · rw [phasesVal_cons, phasesVal_cons, ih]; ring

theorem killRoots_val (p : Nat) (l : List (Rat × Rat)) :
    phasesVal (killRoots p l) = (rotor (((2 / (p : Rat) : Rat) : ℝ) * Real.pi) - 1) * phasesVal l := by
  unfold killRoots
  induction l with
  | nil => simp
  | cons t l ih =>
    rw [List.foldr_cons, addPhase_val, addPhase_val, ih, phasesVal_cons]
    push_cast
    rw [add_mul (t.2 : ℝ), rotor_add]; ring

theorem rotor_ne_one {p : Nat} (hp : 2 ≤ p) : rotor (((2 / (p : Rat) : Rat) : ℝ) * Real.pi) - 1 ≠ 0 := by
  intro h
  have hc : Real.cos (((2 / (p : Rat) : Rat) : ℝ) * Real.pi) = 1 := by
    have := congrArg Complex.re (sub_eq_zero.1 h)
    simpa [rotor] using this
  obtain ⟨n, hn⟩ := (Real.cos_eq_one_iff _).1 hc
  have hp' : (2:ℝ) ≤ p := by exact_mod_cast hp
  push_cast at hn
  have h1 : (n : ℝ) * p = 1 := by
    have := Real.pi_ne_zero
    field_simp at hn
    linarith
  have h2 : n * (p : ℤ) = 1 := by exact_mod_cast h1
  rcases Int.eq_one_or_neg_one_of_mul_eq_one' h2 with ⟨_, h⟩ | ⟨_, h⟩ <;> omega

/-- A sum of roots of unity that tests as 0 is 0. -/
theorem unityZero_spec {l : List (Rat × Rat)} (h : unityZero l = true) : phasesVal l = 0 := by
  have hm : phasesVal (l.foldr (fun t acc => addPhase t.1 t.2 acc) []) = phasesVal l := by
    clear h
    induction l with
    | nil => rfl
    | cons t l ih => rw [List.foldr_cons, addPhase_val, ih, phasesVal_cons]
  have hk : ∀ (ps : List Nat) (m : List (Rat × Rat)), (∀ p ∈ ps, 2 ≤ p) → phasesVal (ps.foldr killRoots m) = 0 →
      phasesVal m = 0 := by
    intro ps m
    induction ps with
    | nil => exact fun _ h => h
    | cons p ps ih =>
      intro hp h
      rw [List.foldr_cons, killRoots_val] at h
      exact ih (fun q hq => hp q (List.mem_cons_of_mem _ hq))
        ((mul_eq_zero.1 h).resolve_left (rotor_ne_one (hp p List.mem_cons_self)))
  unfold unityZero at h
  dsimp only at h
  rw [← hm]
  refine hk _ _ ?_ (by rw [List.isEmpty_iff.1 h]; rfl)
  intro p hp
  exact (by decide : ∀ p ∈ testPrimes, 2 ≤ p) p (List.mem_of_mem_filter hp)

/-- The complex number of a term with its rotor in place of its cosine. -/
noncomputable def CosTerm.turned (t : CosTerm) : ℂ :=
  (((t.coef : ℝ) * (t.atoms.map RealExpr.val).prod : ℝ) : ℂ) * rotor t.ph.val

theorem CosTerm.turned_alike {t u : CosTerm} (h : t.alike u = true) : u.turned =
    (((t.atoms.map RealExpr.val).prod : ℝ) : ℂ) * rotor ((t.ph.rad : ℝ) + termsVal t.ph.more) *
      (((u.coef : ℝ) : ℂ) * rotor ((u.ph.pis : ℝ) * Real.pi)) := by
  simp only [CosTerm.alike, Bool.and_eq_true, decide_eq_true_eq] at h
  obtain ⟨⟨h1, h2⟩, h3⟩ := h
  rw [CosTerm.turned, Angle.val, atoms_prod_eq h1, h2, h3,
    show (u.ph.rad : ℝ) + u.ph.pis * Real.pi + termsVal u.ph.more =
      (u.ph.rad + termsVal u.ph.more) + u.ph.pis * Real.pi by ring, rotor_add]
  push_cast; ring

theorem sum_filter_split (f : CosTerm → Bool) (l : List CosTerm) : (l.map CosTerm.turned).sum =
    ((l.filter f).map CosTerm.turned).sum + ((l.filter (!f ·)).map CosTerm.turned).sum := by
  induction l with
  | nil => simp
  | cons t l ih =>
    cases h : f t
    · simp only [List.filter_cons, h, List.map_cons, List.sum_cons, ih]; simp; ring
    · simp only [List.filter_cons, h, List.map_cons, List.sum_cons, ih]; simp; ring

theorem groupsZero_spec : ∀ (fuel : Nat) {l : List CosTerm}, groupsZero fuel l = true → (l.map CosTerm.turned).sum = 0
  | _, [], _ => rfl
  | 0, _ :: _, h => by simp [groupsZero] at h
  | fuel + 1, t :: l, h => by
    rw [groupsZero, Bool.and_eq_true] at h
    rw [sum_filter_split (t.alike ·), groupsZero_spec fuel h.2, add_zero]
    have hz := unityZero_spec h.1
    have : ∀ m : List CosTerm, (∀ u ∈ m, t.alike u = true) → (m.map CosTerm.turned).sum =
        (((t.atoms.map RealExpr.val).prod : ℝ) : ℂ) * rotor ((t.ph.rad : ℝ) + termsVal t.ph.more) *
          phasesVal (m.map fun u => (u.coef, u.ph.pis)) := by
      intro m
      induction m with
      | nil => simp
      | cons u m ih =>
        intro hm
        rw [List.map_cons, List.sum_cons, ih (fun v hv => hm v (List.mem_cons_of_mem _ hv)),
          CosTerm.turned_alike (hm u List.mem_cons_self), List.map_cons, phasesVal_cons]
        ring
    rw [this _ (fun u hu => by simpa using (List.mem_filter.1 hu).2), hz, mul_zero]

theorem rotor_add_neg (a : ℝ) : rotor a + rotor (-a) = ((2 * Real.cos a : ℝ) : ℂ) := by
  apply Complex.ext <;> simp only [rotor, Real.cos_neg, Real.sin_neg, Complex.add_re, Complex.add_im,
    Complex.ofReal_re, Complex.ofReal_im] <;> ring

/-- A sum that tests as 0 is 0. -/
theorem CosSum.isZero_spec {s : CosSum} (h : s.isZero = true) : s.val = 0 := by
  have h0 := groupsZero_spec _ h
  have e : ∀ l : CosSum, ((l ++ l.map fun t => (⟨t.coef, t.atoms, t.ph.neg⟩ : CosTerm)).map CosTerm.turned).sum =
      ((2 * l.val : ℝ) : ℂ) := by
    intro l
    rw [List.map_append, List.sum_append]
    induction l with
    | nil => simp
    | cons t l ih =>
      simp only [List.map_cons, List.sum_cons, CosSum.val_cons]
      have ht : t.turned + CosTerm.turned ⟨t.coef, t.atoms, t.ph.neg⟩ = ((2 * t.val : ℝ) : ℂ) := by
        rw [CosTerm.turned, CosTerm.turned, Angle.val_neg, ← mul_add, rotor_add_neg, CosTerm.val]
        push_cast; ring
      have hs : ((2 * (t.val + CosSum.val l) : ℝ) : ℂ) = ((2 * t.val : ℝ) : ℂ) + ((2 * CosSum.val l : ℝ) : ℂ) := by
        push_cast; ring
      rw [hs, ← ht, ← ih]; ring
  rw [e] at h0
  have : (2 * s.val : ℝ) = 0 := by exact_mod_cast h0
  linarith

theorem CosSum.rational_spec {s : CosSum} {q : Rat} (h : s.rational = some q) : s.val = q := by
  unfold CosSum.rational at h
  split_ifs at h with hz
  · simp only [Option.some.injEq] at h; subst h; simpa using CosSum.isZero_spec hz
  · split at h
    · rename_i t _
      split_ifs at h with ht
      simp only [Option.some.injEq] at h
      subst h
      simp [CosTerm.val, ht.1, ht.2]
    · simp at h

/-! ### Square roots -/

theorem takeSquares_spec (p : Nat) : ∀ fuel n : Nat,
    (takeSquares p fuel n).1 * (takeSquares p fuel n).1 * (takeSquares p fuel n).2 = n
  | 0, n => by simp [takeSquares]
  | fuel + 1, n => by
    rw [takeSquares]
    split_ifs with h
    · have ih := takeSquares_spec p fuel (n / (p * p))
      calc _ = p * p * ((takeSquares p fuel (n / (p * p))).1 * (takeSquares p fuel (n / (p * p))).1 *
              (takeSquares p fuel (n / (p * p))).2) := by ring
        _ = n := by rw [ih]; exact Nat.mul_div_cancel' h
    · simp

theorem rootPrime_val (p : Nat) : (rootPrime p).val = Real.sqrt p := by
  unfold rootPrime
  split_ifs with h2 h3 h5
  · subst h2
    simp only [CosSum.val_cons, CosSum.val_nil, CosTerm.val, Angle.val_pis]
    rw [show ((1 / 4 : Rat) : ℝ) * Real.pi = Real.pi / 4 by push_cast; ring, Real.cos_pi_div_four]
    push_cast; simp only [List.map_nil, List.prod_nil]; ring
  · subst h3
    simp only [CosSum.val_cons, CosSum.val_nil, CosTerm.val, Angle.val_pis]
    rw [show ((1 / 6 : Rat) : ℝ) * Real.pi = Real.pi / 6 by push_cast; ring, Real.cos_pi_div_six]
    push_cast; simp only [List.map_nil, List.prod_nil]; ring
  · subst h5
    simp only [CosSum.val_cons, CosSum.val_nil, CosTerm.val, Angle.val_pis, Angle.val_zero, Real.cos_zero]
    rw [show ((1 / 5 : Rat) : ℝ) * Real.pi = Real.pi / 5 by push_cast; ring, Real.cos_pi_div_five]
    push_cast; simp only [List.map_nil, List.prod_nil]; ring
  · simp [RealExpr.val]

theorem rootNat_val : ∀ (ps : List Nat) (n : Nat), (rootNat ps n).val = Real.sqrt n
  | [], n => by
    rw [rootNat]
    split_ifs with h
    · have e : (n : ℝ) = (isqrt n : ℝ) * isqrt n := by exact_mod_cast h.symm
      rw [CosSum.val_const, e, Real.sqrt_mul_self (Nat.cast_nonneg _)]; simp
    · simp [RealExpr.val]
  | p :: ps, n => by
    have h := takeSquares_spec p n.log2 n
    rw [rootNat]
    generalize takeSquares p n.log2 n = r at h
    have e : Real.sqrt n = (r.1 : ℝ) * Real.sqrt r.2 := by
      rw [← h]; push_cast
      rw [Real.sqrt_mul (by positivity), Real.sqrt_mul_self (Nat.cast_nonneg _)]
    rw [e]
    split_ifs with hd
    · have e2 : (r.2 : ℝ) = (p : ℝ) * ((r.2 / p : ℕ) : ℝ) := by exact_mod_cast (Nat.mul_div_cancel' hd).symm
      rw [CosSum.val_scale, CosSum.val_mul, rootPrime_val, rootNat_val ps, e2, Real.sqrt_mul (Nat.cast_nonneg _)]
      push_cast; ring
    · rw [CosSum.val_scale, rootNat_val ps]; push_cast; ring

@[simp] theorem rootRat_val (q : Rat) : (rootRat q).val = Real.sqrt q := by
  unfold rootRat
  rw [CosSum.val_scale, rootNat_val]
  have hd : (0:ℝ) < q.den := by exact_mod_cast q.den_pos
  have hq : (q : ℝ) = q.num / q.den := by exact_mod_cast (Rat.num_div_den q).symm
  rcases le_or_gt q.num 0 with h | h
  · have h' : (q.num : ℝ) ≤ 0 := by exact_mod_cast h
    rw [Int.toNat_of_nonpos h, Real.sqrt_eq_zero_of_nonpos (x := (q : ℝ)) (by rw [hq]; exact div_nonpos_of_nonpos_of_nonneg h' hd.le)]
    simp
  · have hn : ((q.num.toNat : ℕ) : ℝ) = q.num := by exact_mod_cast Int.toNat_of_nonneg h.le
    have e : (q : ℝ) = (q.num * q.den : ℝ) / ((q.den : ℝ) * q.den) := by rw [hq]; field_simp
    push_cast
    rw [hn, e, Real.sqrt_div (mul_nonneg (by exact_mod_cast h.le) hd.le), Real.sqrt_mul_self hd.le]
    ring

/-! ### The normal form -/

theorem CosSum.val_invOf {s : CosSum} {x : RealExpr} (h : s.val = x.val) : (s.invOf x).val = x.val⁻¹ := by
  unfold CosSum.invOf
  split
  · rename_i q hq
    rw [CosSum.val_const, ← h, CosSum.rational_spec hq]; push_cast; rfl
  · rw [CosSum.val_atom]; rfl

/-- The normal forms are those of the number and of its reciprocal. -/
theorem RealExpr.forms_val (x : RealExpr) : x.forms.1.val = x.val ∧ x.forms.2.val = x.val⁻¹ := by
  induction x with
  | rat q => simp [RealExpr.forms, RealExpr.val]
  | neg x ih =>
    simp only [RealExpr.forms, CosSum.val_scale, ih.1, ih.2, RealExpr.val]
    constructor
    · push_cast; ring
    · rw [inv_neg]; push_cast; ring
  | add x y ihx ihy =>
    have h : (CosSum.add x.forms.1 y.forms.1).val = (RealExpr.add x y).val := by
      rw [CosSum.val_add, ihx.1, ihy.1]; rfl
    exact ⟨h, CosSum.val_invOf h⟩
  | mul x y ihx ihy =>
    simp only [RealExpr.forms, CosSum.val_mul, ihx.1, ihx.2, ihy.1, ihy.2, RealExpr.val, mul_inv, and_self]
  | inv x ih => exact ⟨ih.2, by rw [RealExpr.val, inv_inv]; exact ih.1⟩
  | root x ih =>
    simp only [RealExpr.forms]
    split
    · rename_i q hq
      have hx : x.val = q := by rw [← ih.1]; exact CosSum.rational_spec hq
      simp only [rootRat_val, CosSum.val_scale, RealExpr.val, hx, true_and]
      push_cast
      rcases le_or_gt (q : ℝ) 0 with h | h
      · simp [Real.sqrt_eq_zero_of_nonpos h]
      · have hs := Real.mul_self_sqrt h.le
        have hp := Real.sqrt_pos.2 h
        field_simp
        nlinarith
    · simp [RealExpr.val]
  | cos x _ =>
    have h : (CosSum.insert (CosTerm.norm ⟨1, [], Angle.ofNum x⟩) []).val = (RealExpr.cos x).val := by
      rw [CosSum.val_insert, CosTerm.val_norm]
      simp [CosTerm.val, RealExpr.val]
    exact ⟨h, CosSum.val_invOf h⟩
  | sin x _ =>
    have h : (CosSum.insert (CosTerm.norm ⟨1, [], (Angle.ofNum x).add ⟨0, -1 / 2, []⟩⟩) []).val =
        (RealExpr.sin x).val := by
      rw [CosSum.val_insert, CosTerm.val_norm]
      simp only [CosSum.val_nil, CosTerm.val, Angle.val_add, Angle.val_ofNum, Angle.val_pis, RealExpr.val,
        List.map_nil, List.prod_nil]
      rw [show x.val + ((-1 / 2 : Rat) : ℝ) * Real.pi = x.val - Real.pi / 2 by push_cast; ring, Real.cos_sub_pi_div_two]
      push_cast; ring
    exact ⟨h, CosSum.val_invOf h⟩
  | log x ih =>
    simp only [RealExpr.forms]
    split_ifs with hz
    · have hx : x.val = 0 := by rw [← ih.1]; exact CosSum.isZero_spec hz
      simp [RealExpr.val, hx]
    · simp [RealExpr.val]
  | _ => simp [RealExpr.forms, RealExpr.val]

/-- The normal form of a number is the number. -/
@[simp] theorem RealExpr.val_form (x : RealExpr) : x.form.val = x.val := x.forms_val.1

/-! ### Bounds -/

theorem termsBounds_holds (p : Nat) : ∀ {l : List (Rat × RealExpr)} {b : Bounds}, termsBounds p l = some b →
    b.Holds (termsVal l)
  | [], b, h => by
    simp only [termsBounds, Option.some.injEq] at h
    subst h
    simpa [termsVal] using Bounds.holds_point 0
  | (q, x) :: l, b, h => by
    simp only [termsBounds, Option.bind_eq_some_iff, Option.map_eq_some_iff] at h
    obtain ⟨a, ha, c, hc, rfl⟩ := h
    exact Bounds.holds_add (Bounds.holds_scale q (RealExpr.bounds_holds p ha)) (termsBounds_holds p hc)

theorem Angle.bounds_holds {p : Nat} {a : Angle} {b : Bounds} (h : a.bounds p = some b) : b.Holds a.val := by
  simp only [Angle.bounds, Option.map_eq_some_iff] at h
  obtain ⟨c, hc, rfl⟩ := h
  have hm := termsBounds_holds p hc
  have e : a.val = (a.rad : ℝ) + (a.pis * Real.pi + termsVal a.more) := by rw [Angle.val]; ring
  rw [e]
  refine Bounds.holds_add (Bounds.holds_point _) ?_
  split_ifs with hp
  · simpa [hp] using hm
  · exact Bounds.holds_add (Bounds.holds_scale _ (piBounds_holds p)) hm

theorem Angle.cosBounds_holds (p : Nat) (a : Angle) : (a.cosBounds p).Holds (Real.cos a.val) := by
  unfold Angle.cosBounds
  split_ifs with h
  · rw [h, Angle.val_zero, Real.cos_zero]; simpa using Bounds.holds_point 1
  · split
    · exact Bounds.holds_cos p (Angle.bounds_holds ‹_›)
    · constructor
      · push_cast; exact Real.neg_one_le_cos _
      · push_cast; exact Real.cos_le_one _

theorem atomsBounds_holds (p : Nat) : ∀ {l : List RealExpr} {b : Bounds}, atomsBounds p l = some b →
    b.Holds (l.map RealExpr.val).prod
  | [], b, h => by
    simp only [atomsBounds, Option.some.injEq] at h
    subst h
    simpa using Bounds.holds_point 1
  | x :: l, b, h => by
    simp only [atomsBounds, Option.bind_eq_some_iff, Option.map_eq_some_iff] at h
    obtain ⟨a, ha, c, hc, rfl⟩ := h
    rw [List.map_cons, List.prod_cons]
    exact Bounds.holds_mul (RealExpr.bounds_holds p ha) (atomsBounds_holds p hc)

/-- The bounds of a sum are bounds of the number it stands for. -/
theorem CosSum.bounds_holds (p : Nat) : ∀ {s : CosSum} {b : Bounds}, CosSum.bounds p s = some b → b.Holds s.val
  | [], b, h => by
    simp only [CosSum.bounds, Option.some.injEq] at h
    subst h
    simpa using Bounds.holds_point 0
  | t :: s, b, h => by
    simp only [CosSum.bounds, Option.bind_eq_some_iff, Option.map_eq_some_iff] at h
    obtain ⟨a, ha, c, hc, rfl⟩ := h
    rw [CosSum.val_cons, CosTerm.val, mul_assoc]
    exact Bounds.holds_add
      (Bounds.holds_scale _ (Bounds.holds_mul (atomsBounds_holds p ha) (Angle.cosBounds_holds p t.ph)))
      (CosSum.bounds_holds p hc)

end Sys2Proof
end

