-- ==== Sys2Proof/Machine/Compare.lean ====
section
/-!
DEFINITION. Comparison and rounding of numbers (41_constellation R107, R110, R111). Every test has the outcome it has
over the real numbers, and the type of what is calculated says so. Equality is found by the normal form, order by
bounds of growing precision (log 6).
-/

namespace Sys2Proof

/-! ### The precision of a calculation -/

/-- The answer at the first precision that gives one, of `p` bits and its doubles. -/
def search {α : Type} [Nonempty α] (attempt : Nat → Option α) (p : Nat) : α :=
  match attempt p with
  | some a => a
  | none => search attempt (2 * p)
partial_fixpoint

/-- The precisions tried first, in bits. -/
def precisions : List Nat := [60, 200, 800]

/-- The answer at the first precision that gives one, however great (log 6). -/
def firstAnswer {α : Type} [Nonempty α] (attempt : Nat → Option α) : α :=
  match precisions.findSome? attempt with
  | some a => a
  | none => search attempt 1600

/-! ### The sign of a number -/

theorem exists_signOf (x : ℝ) : Nonempty {o : Ordering // SignOf o x} := by
  rcases lt_trichotomy x 0 with h | h | h
  exacts [⟨.lt, h⟩, ⟨.eq, h⟩, ⟨.gt, h⟩]

/-- The sign of a number at a precision, where it is decided there. -/
def RealExpr.signAt (x : RealExpr) (p : Nat) : Option {o : Ordering // SignOf o x.val} :=
  ((x.form.bounds p).bind Bounds.sign).attachWith _ fun _ h =>
    let ⟨_, hb, ho⟩ := Option.bind_eq_some_iff.1 h
    Bounds.sign_spec (RealExpr.val_form x ▸ CosSum.bounds_holds p hb) ho

/-- The sign of a number, by bounds. -/
def RealExpr.signFound (x : RealExpr) : {o : Ordering // SignOf o x.val} :=
  haveI := exists_signOf x.val
  firstAnswer x.signAt

/-- The sign of a number: its order against 0. -/
def RealExpr.sign (x : RealExpr) : Ordering := if x.form.isZero then .eq else x.signFound

/-- The range test `-1 <= x <= 1` (41_constellation R107). -/
def RealExpr.inUnit (x : RealExpr) : Bool :=
  (RealExpr.add x (.rat 1)).sign != .lt && (RealExpr.add x (.rat (-1))).sign != .gt

/-! ### Rounding -/

theorem exists_base (x : ℝ) : Nonempty {n : Int // (n : ℝ) ≤ x ∧ x < n + 2} :=
  ⟨⌊x⌋, Int.floor_le x, (Int.lt_floor_add_one x).trans (by linarith)⟩

/-- An integer at most two below a number, at a precision, where there is one known there. -/
def RealExpr.baseAt (x : RealExpr) (p : Nat) : Option {n : Int // (n : ℝ) ≤ x.val ∧ x.val < n + 2} :=
  ((x.form.bounds p).bind Bounds.base).attachWith _ fun _ h =>
    let ⟨_, hb, hn⟩ := Option.bind_eq_some_iff.1 h
    Bounds.base_spec (RealExpr.val_form x ▸ CosSum.bounds_holds p hb) hn

/-- An integer at most two below a number. -/
def RealExpr.base (x : RealExpr) : {n : Int // (n : ℝ) ≤ x.val ∧ x.val < n + 2} :=
  haveI := exists_base x.val
  firstAnswer x.baseAt

/-- Rounding of a number that lies in `[n, n + 2)`, `half m` being its order against `m + 1/2`. -/
def roundingFrom (n : Int) (half : Int → Ordering) : Rounding :=
  match half n with
  | .lt => .nearest n
  | .eq => .tie n
  | .gt =>
    match half (n + 1) with
    | .lt => .nearest (n + 1)
    | .eq => .tie (n + 1)
    | .gt => .nearest (n + 2)

/-- The order of a number against `m + 1/2`. -/
def RealExpr.halfOrder (x : RealExpr) (m : Int) : Ordering := (RealExpr.add x (.rat (-(m : Rat) - 1 / 2))).sign

/-- Rounding to the nearest integer (41_constellation R111). -/
def RealExpr.rounding (x : RealExpr) : Rounding := roundingFrom x.base x.halfOrder

/-- `round_T` at the draw `k`: at a tie the free choice `TIE` between the two neighbours (41_constellation R111,
log 5). -/
def Rounding.atDraw (r : Rounding) (k : Nat) : Int :=
  match r with
  | .nearest n => n
  | .tie n => if Config.tieUp k then n + 1 else n

end Sys2Proof
end

