-- ==== Sys2Proof/Machine/Tables.lean ====
section
/-!
DEFINITION. The two tables, functions of ORDER (41_constellation R100 to R103, 10_state R25, R26).
-/

namespace Sys2Proof

/-- The integer coordinate `2*k - DIM + 1` of grid index `k` (41_constellation R102). -/
def rawComp (c : Config) (k : Nat) : Int := 2 * (k : Int) - (c.dim : Int) + 1

/-- `RAW[s]`: the column decides the real part, the row the imaginary part (41_constellation R102). -/
def rawPoint (c : Config) (s : Nat) : Int × Int := (rawComp c (s % c.dim), rawComp c (s / c.dim))

/-- The divisor `DIM - 1` of the normalisation, the greatest imaginary part of a raw point (41_constellation R103). -/
def peak (c : Config) : Rat := (c.dim : Rat) - 1

/-- `comp(k)`, the component of grid index `k` (41_constellation R112). -/
def comp (c : Config) (k : Nat) : Rat := (rawComp c k : Rat) / peak c

/-- `MODTAB[s]`, its two components (41_constellation R103). -/
def modPoint (c : Config) (s : Nat) : Rat × Rat :=
  (((rawPoint c s).1 : Rat) / peak c, ((rawPoint c s).2 : Rat) / peak c)

/-- `MODTAB[s]` as a complex value (10_state R25). -/
def modtab (c : Config) (s : Nat) : Cplx := Cplx.ofRat (modPoint c s).1 (modPoint c s).2

/-- `DEMGRID[r][k] = k + r * DIM` (41_constellation R101). -/
def demgrid (c : Config) (row col : Nat) : Nat := col + row * c.dim

end Sys2Proof
end

