-- ==== Sys2Proof/Machine/Quantizer.lean ====
section
/-!
DEFINITION. The quantizer and the per-symbol mapping that QUANT, IQ.DEM and DEMODULATE share
(41_constellation R107, 42_iq_mod_dem R120, R121).
-/

namespace Sys2Proof

/-- `(DIM - 1) / 2` (41_constellation R107). -/
def halfSpan (c : Config) : Rat := ((c.dim : Rat) - 1) / 2

/-- The scaled number `((x + R)/R) * (DIM - 1)/2`, as `(x/R) * (DIM - 1)/2 + (DIM - 1)/2` (41_constellation R107). -/
def gridNum (c : Config) (x : RealExpr) : RealExpr :=
  .add (.mul (.mul x (.inv c.scale.num)) (.rat (halfSpan c))) (.rat (halfSpan c))

/-- The order of the scaled number against `n + 1/2`: multiplied by `R`, which is positive, it is that of `x * (DIM - 1)/2` against `R * (n + 1/2 - (DIM - 1)/2)`. -/
def gridHalfOrder (c : Config) (x : RealExpr) (n : Int) : Ordering :=
  (RealExpr.add (.mul x (.rat (halfSpan c))) (.mul c.scale.num (.rat (halfSpan c - n - 1 / 2)))).sign

/-- The scaled number rounded (41_constellation R107, R111). -/
def gridRounding (c : Config) (x : RealExpr) : Rounding := roundingFrom (gridNum c x).base (gridHalfOrder c x)

/-- The index test: an index of the grid, or `none` for `OutOfRange` (41_constellation R107). -/
def gridIndex (c : Config) (n : Int) : Option Nat := if 0 ≤ n ∧ n < (c.dim : Int) then some n.toNat else none

/-- The index test of `round_T` at the draw `k`. Of a tie both neighbours are tested before the free choice is made,
so that whether the axis faults depends on it only where the neighbours differ in that (41_constellation R111). -/
def indexAt (c : Config) (r : Rounding) (k : Nat) : Option Nat :=
  match r with
  | .nearest n => gridIndex c n
  | .tie n =>
    match gridIndex c n, gridIndex c (n + 1) with
    | none, none => none
    | some a, some b => some (if Config.tieUp k then b else a)
    | a, b => if Config.tieUp k then b else a

/-- One axis of the quantizer at the draw `k`: the range test, the rounding, the index test; `none` is `OutOfRange`
(41_constellation R107). -/
def quantAxis (c : Config) (v : RealExpr) (k : Nat) : Option Nat :=
  if v.inUnit then indexAt c (gridRounding c v) k else none

/-- How many draws one quantization takes: one for each axis. -/
def quantDraws : Nat := 2

/-- The quantizer (41_constellation R107): row from the imaginary part, column from the real part. The column's draw
is `k`, the row's `k + 1`. -/
def quantize (c : Config) (p : Cplx) (k : Nat) : Option (Nat × Nat) :=
  (quantAxis c p.imCoord (k + 1)).bind fun q => (quantAxis c p.reCoord k).map fun i => (q, i)

/-- The rotated point of a symbol, `MODTAB[s] * rotor(ROT)`; `none` is `InvalidSymbol` (42_iq_mod_dem R120). -/
def mapSymbol (c : Config) (rot : RealExpr) (s : Nat) : Option Cplx :=
  if s < c.order then some ((modtab c s).rotate (Angle.ofNum rot)) else none

/-- The symbol of a received sample: de-rotate, quantize, look up; `none` is `OutOfRange` (42_iq_mod_dem R121). -/
def demapSample (c : Config) (rot : RealExpr) (p : Cplx) (k : Nat) : Option Nat :=
  (quantize c (p.rotate (Angle.ofNum rot).neg) k).map fun qi => demgrid c qi.1 qi.2

end Sys2Proof
end

