-- ==== Sys2Proof/Machine/Constellation.lean ====
section
/-!
DEFINITION. The meanings of the rotation register's commands, the table reads and the quantizer
(41_constellation R105 to R109).
-/

namespace Sys2Proof.Machine

/-- `ROT.SET theta` (41_constellation R108). -/
def execRotSet (theta : RealExpr) (s : State) : Result := complete [] (s.setRot theta)

/-- `ROT.GET` (41_constellation R109). -/
def execRotGet (s : State) : Result := complete [.real s.rot] s

/-- `TAB.MOD symbol` (41_constellation R105). -/
def execTabMod (symbol : Nat) (s : State) : Result :=
  if s.cfg.order ≤ symbol then raise .invalidSymbol 0 s
  else complete [.cplx (modtab s.cfg symbol)] s

/-- `TAB.DEM row, col` (41_constellation R106). -/
def execTabDem (row col : Nat) (s : State) : Result :=
  if s.cfg.dim ≤ row ∨ s.cfg.dim ≤ col then raise .outOfRange 0 s
  else complete [.int (demgrid s.cfg row col)] s

/-- What a quantizing command answers. -/
def answerQuant : Option (Nat × Nat) → Response
  | none => faultResponse .outOfRange 0
  | some (q, i) => okResponse [.int q, .int i]

/-- `QUANT point` (41_constellation R107): answers row, then column. -/
def execQuant (point : Cplx) (s : State) : Result :=
  .next ((s.draw quantDraws).respond (answerQuant (quantize s.cfg point s.draws)))

end Sys2Proof.Machine
end

