-- ==== Sys2Proof/Machine/IqMap.lean ====
section
/-!
DEFINITION. The meanings of the per-symbol commands (42_iq_mod_dem R120, R121).
-/

namespace Sys2Proof.Machine

/-- `IQ.MOD symbol` (42_iq_mod_dem R120). -/
def execIqMod (symbol : Nat) (s : State) : Result :=
  match mapSymbol s.cfg s.rot symbol with
  | none => raise .invalidSymbol 0 s
  | some p => complete [.cplx p] s

/-- What a demapping command answers. -/
def answerDemap : Option Nat → Response
  | none => faultResponse .outOfRange 0
  | some symbol => okResponse [.int symbol]

/-- `IQ.DEM point` (42_iq_mod_dem R121). -/
def execIqDem (point : Cplx) (s : State) : Result :=
  .next ((s.draw quantDraws).respond (answerDemap (demapSample s.cfg s.rot point s.draws)))

end Sys2Proof.Machine
end

