-- ==== Sys2Proof/Machine/Pipeline.lean ====
section
/-!
DEFINITION. The meanings of the pipeline commands (43_modulate_demodulate R130, R131). The private FIFO S
(10_state R28) is a bit sequence of their own; it has no bound (40_bitstream R88).
-/

namespace Sys2Proof.Machine

/-- The samples of the chunks from index `k` on, in order, or the index of the first chunk that is no symbol
(43_modulate_demodulate R130). -/
def mapChunks (c : Config) (rot : RealExpr) : Nat → List Nat → Except Nat (List Cplx)
  | _, [] => .ok []
  | k, s :: rest =>
    match mapSymbol c rot s with
    | none => .error k
    | some p => (mapChunks c rot (k + 1) rest).map (p :: ·)

/-- The chunks of a data burst: bytes into S, then S cut at `SYMBOL_BITS` (43_modulate_demodulate R130). -/
def chunksOf (c : Config) (data : List Nat) : List Nat := groups c.symbolBits (lsbitsAll data Config.dataBits)

/-- What MODULATE answers. -/
def answerModulate : Except Nat (List Cplx) → Response
  | .error k => faultResponse .invalidSymbol k
  | .ok samples => okResponse (Beat.ofCplxs samples)

/-- `MODULATE [d0, ...]` (43_modulate_demodulate R130). -/
def execModulate (data : List Nat) (s : State) : Result :=
  .next (s.respond (answerModulate (mapChunks s.cfg s.rot 0 (chunksOf s.cfg data))))

/-- The symbols of the samples from index `k` on, in order, or the index of the first sample that demaps to none;
sample `k` uses the draws from `d + 2*k` on (43_modulate_demodulate R131). -/
def demapSamples (c : Config) (rot : RealExpr) (d : Nat) : Nat → List Cplx → Except Nat (List Nat)
  | _, [] => .ok []
  | k, p :: rest =>
    match demapSample c rot p (d + quantDraws * k) with
    | none => .error k
    | some s => (demapSamples c rot d (k + 1) rest).map (s :: ·)

/-- The bytes of a symbol burst: symbols into S at `SYMBOL_BITS`, then S cut at 8 (43_modulate_demodulate R131). -/
def bytesOf (c : Config) (symbols : List Nat) : List Nat := groups Config.dataBits (lsbitsAll symbols c.symbolBits)

/-- What DEMODULATE answers. -/
def answerDemodulate (c : Config) : Except Nat (List Nat) → Response
  | .error k => faultResponse .outOfRange k
  | .ok symbols => okResponse (Beat.ofInts (bytesOf c symbols))

/-- `DEMODULATE [p0, ...]` (43_modulate_demodulate R131). -/
def execDemodulate (samples : List Cplx) (s : State) : Result :=
  .next ((s.draw (quantDraws * samples.length)).respond
    (answerDemodulate s.cfg (demapSamples s.cfg s.rot s.draws 0 samples)))

end Sys2Proof.Machine
end

