-- ==== Sys2Proof/Machine/Dispatch.lean ====
section
/-!
DEFINITION. The dispatch: one arm per command, each a direct call of its meaning.
-/

namespace Sys2Proof.Machine

/-- The execution of one command, atomic (20_memory R46). -/
def exec (i : Instr) (s : State) : Host.Outcome State Fault Refusal :=
  match i with
  | .bsWrite value width => Sys2Proof.Machine.execBsWrite value width s
  | .bsWriteAll values width => Sys2Proof.Machine.execBsWriteAll values width s
  | .bsRead width => Sys2Proof.Machine.execBsRead width s
  | .bsReadAll width => Sys2Proof.Machine.execBsReadAll width s
  | .rotSet theta => Sys2Proof.Machine.execRotSet theta s
  | .rotGet => Sys2Proof.Machine.execRotGet s
  | .tabMod symbol => Sys2Proof.Machine.execTabMod symbol s
  | .tabDem row col => Sys2Proof.Machine.execTabDem row col s
  | .quant point => Sys2Proof.Machine.execQuant point s
  | .iqMod symbol => Sys2Proof.Machine.execIqMod symbol s
  | .iqDem point => Sys2Proof.Machine.execIqDem point s
  | .modulate data => Sys2Proof.Machine.execModulate data s
  | .demodulate samples => Sys2Proof.Machine.execDemodulate samples s

end Sys2Proof.Machine
end

