-- ==== Sys2Proof/Machine/Step.lean ====
section
/-!
DEFINITION. One step: the block takes the next event of the host's list (10_state R21, 30_encoding R60).
-/

namespace Sys2Proof.Machine

/-- One step. With nothing before it the block does nothing (60_exceptions R149); a reset resets it
(70_reset_and_hazards R160); a transaction is decoded and its command executed, whole (20_memory R46). -/
def step (s : State) : Host.Outcome State Fault Refusal :=
  match s.inbox with
  | [] => .next s
  | .reset :: rest => .next (s.taking rest).doReset
  | .strayBeats _ :: _ => .refused .malformedTransaction
  | .command h beats :: rest =>
    match accept h beats rest s with
    | .run i t => exec i t
    | .done r => r

/-- The state in which the block's next step accepts the table row's instruction whose bits are `w`, with operand
beats of zeros (log 8, log 19). -/
def State.withFetchWord (s : State) (_nbits w : Nat) : State := s.placing (BitVec.ofNat 16 w)

end Sys2Proof.Machine
end

