-- ==== Sys2Proof/Machine/Reference.lean ====
section
/-!
DEFINITION. The quantizer as the spec writes it over the reals (41_constellation R107, R110, R111, R113). Statements are
made in these terms; no step of the machine uses them.
-/

namespace Sys2Proof

/-- The scale `R` (00_scope R7). -/
noncomputable def Scale.val (r : Scale) : ℝ := r.num.val

/-- `((v + R)/R) * (DIM - 1)/2` over the reals (41_constellation R107). -/
noncomputable def gridReal (c : Config) (v : ℝ) : ℝ :=
  (v + c.scale.val) / c.scale.val * ((c.dim : ℝ) - 1) / 2

/-- `n` is an answer of `round_T(x)` (41_constellation R111): the integer nearer than a half, or either neighbour at
an exact half. -/
def RoundsTo (x : ℝ) (n : ℤ) : Prop := |x - (n : ℝ)| ≤ 1 / 2

/-- Over the reals one axis of the quantizer answers `k` for the coordinate `v` (41_constellation R107). -/
def AxisGives (c : Config) (v : ℝ) (k : ℕ) : Prop :=
  -1 ≤ v ∧ v ≤ 1 ∧ RoundsTo (gridReal c v) k ∧ k < c.dim

/-- Over the reals one axis of the quantizer faults for the coordinate `v` (41_constellation R107). -/
def AxisFaults (c : Config) (v : ℝ) : Prop :=
  ¬(-1 ≤ v ∧ v ≤ 1) ∨ ∃ n : ℤ, RoundsTo (gridReal c v) n ∧ ¬(0 ≤ n ∧ n < (c.dim : ℤ))

/-- The condition of 41_constellation R113: `|(k - m) * (1/R - 1)| < 1/2`, with `m = (DIM - 1)/2`. -/
def Inverts (c : Config) (k : ℕ) : Prop :=
  |((k : ℝ) - ((c.dim : ℝ) - 1) / 2) * (1 / c.scale.val - 1)| < 1 / 2

end Sys2Proof
end

