-- ==== Sys2Proof/Safety.lean ====
section
/-!
DEFINITION. What counts as a safe run, and the words the claims use: the invariant of 10_state R31, the framing duty
of the host (30_encoding R60, 60_exceptions R155), and closed forms of bit sequences and pipelines over indices.
-/

namespace Sys2Proof.Machine

/-- `len(F) <= DEPTH` (10_state R24, R31 b). -/
def State.withinDepth (s : State) : Prop := ∀ d, s.cfg.depth = some d → s.fifo.length ≤ d

/-- Appending `n` bits stays within DEPTH (40_bitstream R88). -/
def State.hasRoom (n : Nat) (s : State) : Prop := ∀ d, s.cfg.depth = some d → s.fifo.length + n ≤ d

/-- The header spells no command: a reserved opcode, or a C0 opcode with a nonzero `z` (30_encoding R66, R67). -/
def SpellsNone (h : Header) : Prop :=
  (Header.op h).toNat ∈ [0, 14, 15] ∨ ((Header.op h).toNat ∈ [5, 6, 7, 8, 9, 10, 11, 12, 13] ∧ Header.low h ≠ 0)

/-- The host framed the event correctly: exactly the beats of 30_encoding R62, none after an illegal header. -/
def HostEvent.wellFramed : HostEvent → Bool
  | .reset => true
  | .strayBeats _ => false
  | .command h beats =>
    match decode h beats with
    | .ok _ => true
    | .error .illegalCommand => beats.isEmpty
    | .error .malformed => false

/-- A safe state: the FIFO is within its capacity, and every event the host has issued is well framed. -/
def State.Safe (s : State) : Prop := s.withinDepth ∧ ∀ e ∈ s.inbox, e.wellFramed = true

/-- The response appended, everything else as it was: what a command that writes no state leaves. -/
def State.answered (s : State) (status : BitVec 4) (beats : List Beat) : State :=
  { s with responses := s.responses ++ [⟨status, beats⟩] }

end Sys2Proof.Machine

namespace Sys2Proof

/-- The sum of `s[start + i] * 2^i` for `i < n` (00_scope R11, 20_memory R40), bits outside the sequence counting 0. -/
def windowVal (s : Bits) (start n : Nat) : Nat :=
  ((List.range n).map fun i => if s[start + i]? = some true then 2 ^ i else 0).sum

/-- Bit `j` of the stream that words make at width `w`: bit `j mod w` of word `j div w` (20_memory R40, R41). -/
def streamBit (vs : List Nat) (w j : Nat) : Bool := (vs.getD (j / w) 0).testBit (j % w)

/-- Chunk `k` of width `w2` of the stream that words make at width `w1` (20_memory R42). -/
def chunkVal (vs : List Nat) (w1 w2 k : Nat) : Nat :=
  ((List.range w2).map fun i => if streamBit vs w1 (k * w2 + i) then 2 ^ i else 0).sum

/-- `MODTAB[s]` in the complex numbers (41_constellation R103). -/
noncomputable def modtabVal (c : Config) (s : Nat) : ℂ :=
  ⟨(2 * ((s % c.dim : ℕ) : ℝ) - c.dim + 1) / ((c.dim : ℝ) - 1),
   (2 * ((s / c.dim : ℕ) : ℝ) - c.dim + 1) / ((c.dim : ℝ) - 1)⟩

/-- Over the reals the sample quantizes to row `q` and column `i` (41_constellation R107). -/
def SampleGives (c : Config) (p : ℂ) (q i : Nat) : Prop := AxisGives c p.im q ∧ AxisGives c p.re i

/-- Over the reals the sample faults with `OutOfRange` (41_constellation R107). -/
def SampleFaults (c : Config) (p : ℂ) : Prop := AxisFaults c p.im ∨ AxisFaults c p.re

/-- Neither axis of the sample scales to an exact half (41_constellation R107, R111). -/
def OffTies (c : Config) (p : ℂ) : Prop := ∀ n : ℤ, gridReal c p.re ≠ n + 1 / 2 ∧ gridReal c p.im ≠ n + 1 / 2

end Sys2Proof

namespace Sys2Proof.Machine

/-- Commands executed one after another, each completely before the next (20_memory R49). -/
def execAll : List Instr → State → Result
  | [], s => .next s
  | i :: rest, s =>
    match exec i s with
    | .next t => execAll rest t
    | .fault f => .fault f
    | .refused r => .refused r

/-- The command is one of the four of the FIFO (30_encoding R65). -/
def isBsCommand : Instr → Bool
  | .bsWrite _ _ | .bsWriteAll _ _ | .bsRead _ | .bsReadAll _ => true
  | .rotSet _ | .rotGet | .tabMod _ | .tabDem _ _ | .quant _ | .iqMod _ | .iqDem _ | .modulate _ | .demodulate _ => false

/-- The width operand of a FIFO command (30_encoding R64). -/
def widthOf : Instr → Option Int
  | .bsWrite _ w | .bsWriteAll _ w | .bsRead w | .bsReadAll w => some w
  | .rotSet _ | .rotGet | .tabMod _ | .tabDem _ _ | .quant _ | .iqMod _ | .iqDem _ | .modulate _ | .demodulate _ => none

/-- The command reads the rotation register (10_state R23). -/
def readsRot : Instr → Bool
  | .rotGet | .iqMod _ | .iqDem _ | .modulate _ | .demodulate _ => true
  | .bsWrite _ _ | .bsWriteAll _ _ | .bsRead _ | .bsReadAll _ | .rotSet _ | .tabMod _ | .tabDem _ _ | .quant _ => false

end Sys2Proof.Machine
end

