-- ==== Sys2Proof/Certificates/Slice0/Obligations.lean ====
section
/-!
DEFINITION. The statements for the provers, from the numbered rules of spec/. Each docstring names the rule it
formalises. A response is written by its status code and beats (30_encoding R63, 60_exceptions R141).
-/

open Sys2Proof Sys2Proof.Machine

/-! ### Encoding and decoding -/

/-- 30_encoding R61 to R65 on words written out from the opcode map (95_test_vectors T1 to T9). -/
def Obligations.DecodeReadsSpecWords : Prop :=
  decode 0x1008 [.int 5] = .ok (.bsWrite 5 8) ∧
  decode 0x1800 [.int 5] = .ok (.bsWrite 5 (-2048)) ∧
  decode 0x27FF [.cnt 2, .int 3, .int 4] = .ok (.bsWriteAll [3, 4] 2047) ∧
  decode 0x3FFF [] = .ok (.bsRead (-1)) ∧
  decode 0x4000 [] = .ok (.bsReadAll 0) ∧
  decode 0x5000 [.real (.mul (.rat (1 / 2)) .pi)] = .ok (.rotSet (.mul (.rat (1 / 2)) .pi)) ∧
  decode 0x6000 [] = .ok .rotGet ∧
  decode 0x7000 [.int 6] = .ok (.tabMod 6) ∧
  decode 0x8000 [.int 1, .int 2] = .ok (.tabDem 1 2) ∧
  decode 0x9000 [.cplx (Cplx.ofRat 1 (-1))] = .ok (.quant (Cplx.ofRat 1 (-1))) ∧
  decode 0xA000 [.int 0] = .ok (.iqMod 0) ∧
  decode 0xB000 [.cplx (Cplx.ofRat 1 (-1))] = .ok (.iqDem (Cplx.ofRat 1 (-1))) ∧
  decode 0xC000 [.cnt 1, .int 1] = .ok (.modulate [1]) ∧
  decode 0xD000 [.cnt 1, .cplx (Cplx.ofRat 1 (-1))] = .ok (.demodulate [Cplx.ofRat 1 (-1)]) ∧
  decode 0xE123 [] = .error .illegalCommand ∧
  decode 0x5001 [] = .error .illegalCommand

/-- Every well-formed command, with every operand the encoding admits, is read back from its header and beats. -/
def Obligations.DecodeInvertsEncode : Prop :=
  ∀ i : Instr, i.wellFormed = true → decode (encode i).1 (encode i).2 = .ok i

/-- A transaction that decodes is the encoding of the command it decodes to: no header bit and no beat is ignored. -/
def Obligations.EncodeInvertsDecode : Prop :=
  ∀ (h : Header) (beats : List Beat) (i : Instr),
    decode h beats = .ok i → i.wellFormed = true ∧ encode i = (h, beats)

/-- 30_encoding R66, R67, 60_exceptions R146, R150 (1): reserved opcodes and nonzero must-be-zero bits answer
IllegalCommand, whatever beats came with the header, with no state change and no beat consumed (the model leaves them
before the block, log 10); every width field of a CW header is decoded, the negative ones to InvalidWidth. -/
def Obligations.IllegalHeadersAnswerIllegalCommand : Prop :=
  (∀ (s : State) (h : Header) (beats : List Beat) (rest : List HostEvent),
    s.inbox = .command h beats :: rest →
    (Header.op h).toNat ∈ [0, 14, 15] ∨ ((Header.op h).toNat ∈ [5, 6, 7, 8, 9, 10, 11, 12, 13] ∧ Header.low h ≠ 0) →
    step s = .next ({ s with inbox := if beats = [] then rest else .strayBeats beats :: rest }.answered 0xF [.cnt 0])) ∧
  (∀ (s : State) (h : Header) (beats : List Beat) (rest : List HostEvent) (v : Nat) (vs : List Nat),
    s.inbox = .command h beats :: rest →
    ((Header.op h).toNat = 1 ∧ beats = [.int v]) ∨ ((Header.op h).toNat = 2 ∧ beats = .cnt vs.length :: vs.map .int) ∨
      ((Header.op h).toNat ∈ [3, 4] ∧ beats = []) →
    (∃ i, decode h beats = .ok i ∧ widthOf i = some (Header.low h).toInt) ∧
    ((Header.low h).toInt < 0 → step s = .next ((s.taking rest).answered 0x8 [.cnt 0])))

/-- 30_encoding R66, R67, 60_exceptions R150 (1), R155 (b), (c): the decoder's IllegalCommand depends on the header alone
and comes before the beats are looked at; a header that spells a command is ill framed exactly where header and beats are
those of no well-formed command. -/
def Obligations.DecoderErrorsAreTheHeadersFirst : Prop :=
  ∀ (h : Header) (beats : List Beat),
    (decode h beats = .error .illegalCommand ↔ SpellsNone h) ∧
    (decode h beats = .error .malformed ↔ ¬ SpellsNone h ∧ ∀ i : Instr, i.wellFormed = true → encode i ≠ (h, beats))

/-- The beats that came with an illegal header are not consumed (30_encoding R66); the model leaves them before the
block, where no command claims them and the next step refuses them (log 10). -/
def Obligations.IllegalHeaderLeavesItsBeats : Prop :=
  ∀ (s : State) (h : Header) (b : Beat) (bs : List Beat) (rest : List HostEvent),
    s.inbox = .command h (b :: bs) :: rest → SpellsNone h →
    ∃ t, step s = .next t ∧ t.inbox = .strayBeats (b :: bs) :: rest ∧ t.fifo = s.fifo ∧ t.rot = s.rot ∧
      t.responses = s.responses ++ [⟨0xF, [.cnt 0]⟩] ∧ step t = .refused .malformedTransaction

/-! ### The step -/

/-- 10_state R21, 20_memory R46, R49: the next command is decoded and executed, whole, and taken from the list. -/
def Obligations.StepRunsDecodedCommand : Prop :=
  ∀ (s : State) (h : Header) (beats : List Beat) (rest : List HostEvent) (i : Instr),
    s.inbox = .command h beats :: rest → decode h beats = .ok i → i.wellFormed = true →
    step s = exec i { s with inbox := rest }

/-- 10_state R30: what the reset event leaves, and the state after reset of every instance. -/
def Obligations.ResetLeavesSpecValues : Prop :=
  (∀ c : Config, (State.resetOf c).fifo = [] ∧ (State.resetOf c).rot.val = 0 ∧ (State.resetOf c).cfg = c ∧
    (∀ k, k < c.order → (modtab (State.resetOf c).cfg k).val = modtabVal c k) ∧
    (∀ r k, r < c.dim → k < c.dim → demgrid (State.resetOf c).cfg r k = k + r * c.dim)) ∧
  (∀ (s : State) (rest : List HostEvent), s.inbox = .reset :: rest →
    ∃ t, step s = .next t ∧ t.fifo = [] ∧ t.rot.val = 0 ∧ t.cfg = s.cfg)

/-- Nothing happens without a command or a reset (60_exceptions R149). -/
def Obligations.NothingHappensWithoutAnEvent : Prop :=
  ∀ s : State, s.inbox = [] → step s = .next s

/-- Every command terminates and answers exactly once, and leaves the parameters and the host's list alone
(30_encoding R60, 70_reset_and_hazards R176, 60_exceptions R152). -/
def Obligations.EveryCommandAnswersOnce : Prop :=
  ∀ (i : Instr) (s : State), ∃ t r, exec i s = .next t ∧ t.responses = s.responses ++ [r] ∧
    t.cfg = s.cfg ∧ t.inbox = s.inbox

/-! ### The FIFO commands -/

/-- 40_bitstream R80. -/
def Obligations.BsWriteAppendsLowBits : Prop :=
  ∀ (value : Nat) (width : Int) (s : State),
    (∀ w : BitVec 12, decode ((1 : BitVec 4) ++ w) [.int value] = .ok (.bsWrite value w.toInt)) ∧
    (width < 0 → exec (.bsWrite value width) s = .next (s.answered 0x8 [.cnt 0])) ∧
    (0 ≤ width → ¬ s.hasRoom width.toNat → exec (.bsWrite value width) s = .next (s.answered 0xC [.cnt 0])) ∧
    (0 ≤ width → s.hasRoom width.toNat → ∃ b : Bits, b.length = width.toNat ∧
      (∀ i, i < width.toNat → b[i]? = some (value.testBit i)) ∧
      exec (.bsWrite value width) s = .next ({ s with fifo := s.fifo ++ b }.answered 0x0 []))

/-- 40_bitstream R81. -/
def Obligations.BsWriteAllAppendsEachInOrder : Prop :=
  ∀ (values : List Nat) (width : Int) (s : State),
    (∀ w : BitVec 12, decode ((2 : BitVec 4) ++ w) (.cnt values.length :: values.map .int) =
      .ok (.bsWriteAll values w.toInt)) ∧
    (width < 0 → exec (.bsWriteAll values width) s = .next (s.answered 0x8 [.cnt 0])) ∧
    (0 ≤ width → ¬ s.hasRoom (values.length * width.toNat) →
      exec (.bsWriteAll values width) s = .next (s.answered 0xC [.cnt 0])) ∧
    (0 ≤ width → s.hasRoom (values.length * width.toNat) → ∃ b : Bits, b.length = values.length * width.toNat ∧
      (∀ k i (hk : k < values.length), i < width.toNat →
        b[k * width.toNat + i]? = some (values[k].testBit i)) ∧
      exec (.bsWriteAll values width) s = .next ({ s with fifo := s.fifo ++ b }.answered 0x0 []))

/-- 40_bitstream R82. -/
def Obligations.BsReadConsumesFromHead : Prop :=
  ∀ (width : Int) (s : State),
    (∀ w : BitVec 12, decode ((3 : BitVec 4) ++ w) [] = .ok (.bsRead w.toInt)) ∧
    (width < 0 → exec (.bsRead width) s = .next (s.answered 0x8 [.cnt 0])) ∧
    (0 ≤ width → s.fifo = [] → exec (.bsRead width) s = .next (s.answered 0x1 [])) ∧
    (0 ≤ width → s.fifo ≠ [] → ∀ k, k = min width.toNat s.fifo.length →
      windowVal s.fifo 0 k < 2 ^ k ∧
      exec (.bsRead width) s =
        .next ({ s with fifo := s.fifo.drop k }.answered 0x0 [.int (windowVal s.fifo 0 k)]))

/-- 40_bitstream R83. -/
def Obligations.BsReadAllConsumesWholeGroups : Prop :=
  ∀ (width : Int) (s : State),
    (∀ w : BitVec 12, decode ((4 : BitVec 4) ++ w) [] = .ok (.bsReadAll w.toInt)) ∧
    (width < 0 → exec (.bsReadAll width) s = .next (s.answered 0x8 [.cnt 0])) ∧
    (width = 0 → exec (.bsReadAll width) s = .next (s.answered 0xB [.cnt 0])) ∧
    (0 < width → ∀ n, n = s.fifo.length / width.toNat → ∃ words : List Nat, words.length = n ∧
      (∀ k, k < n → words[k]? = some (windowVal s.fifo (k * width.toNat) width.toNat)) ∧
      (∀ v ∈ words, v < 2 ^ width.toNat) ∧
      (s.fifo.drop (n * width.toNat)).length = s.fifo.length % width.toNat ∧
      exec (.bsReadAll width) s = .next
        ({ s with fifo := s.fifo.drop (n * width.toNat) }.answered 0x0 (.cnt n :: words.map .int)))

/-- 40_bitstream R85: the exact round trip, from an empty FIFO and behind whole words of an older content. -/
def Obligations.ReadAllAfterWriteAllReturnsValues : Prop :=
  ∀ (V : List Nat) (w : Nat) (s : State), 1 ≤ w → (∀ v ∈ V, v < 2 ^ w) → s.hasRoom (V.length * w) →
    w ∣ s.fifo.length → ∃ (old : List Nat) (t u : State), old.length = s.fifo.length / w ∧
      (∀ k, k < old.length → old[k]? = some (windowVal s.fifo (k * w) w)) ∧
      exec (.bsWriteAll V w) s = .next t ∧ exec (.bsReadAll w) t = .next u ∧ u.fifo = [] ∧
      u.responses = s.responses ++ [⟨0x0, []⟩, ⟨0x0, .cnt (old ++ V).length :: (old ++ V).map .int⟩]

/-- 40_bitstream R86: BS.READALL returns `N div w` words and leaves `N mod w` bits, the last ones. -/
def Obligations.ReadAllLeavesThePartialGroup : Prop :=
  ∀ (w : Nat) (s : State), 1 ≤ w → ∃ (t : State) (words : List Nat), exec (.bsReadAll w) s = .next t ∧
    t.responses = s.responses ++ [⟨0x0, .cnt (s.fifo.length / w) :: words.map .int⟩] ∧
    words.length = s.fifo.length / w ∧ t.fifo.length = s.fifo.length % w ∧ t.fifo <:+ s.fifo

/-- 40_bitstream R87: writes only grow F at the tail, reads only shrink it at the head, no other command touches it. -/
def Obligations.FifoGrowsAtTailShrinksAtHead : Prop :=
  ∀ (i : Instr) (s t : State), exec i s = .next t →
    match i with
    | .bsWrite _ _ => s.fifo <+: t.fifo
    | .bsWriteAll _ _ => s.fifo <+: t.fifo
    | .bsRead _ => t.fifo <:+ s.fifo
    | .bsReadAll _ => t.fifo <:+ s.fifo
    | _ => t.fifo = s.fifo

/-- 40_bitstream R84: the pair `(L, N)` of the FIFO's length and little-endian value under a write and a read. -/
def Obligations.FifoAsLengthAndValue : Prop :=
  (∀ (v w : Nat) (s t : State), s.hasRoom w → exec (.bsWrite v w) s = .next t →
    t.fifo.length = s.fifo.length + w ∧
    bitsVal t.fifo = bitsVal s.fifo + v % 2 ^ w * 2 ^ s.fifo.length) ∧
  (∀ (k : Nat) (s t : State), s.fifo ≠ [] → k ≤ s.fifo.length → exec (.bsRead k) s = .next t →
    t.responses = s.responses ++ [⟨0x0, [.int (bitsVal s.fifo % 2 ^ k)]⟩] ∧
    t.fifo.length = s.fifo.length - k ∧ bitsVal t.fifo = bitsVal s.fifo / 2 ^ k)

/-- 20_memory R42: words written at one width and read at another are the cuts of one little-endian number. -/
def Obligations.MixedWidthReadsCutOneNumber : Prop :=
  ∀ (V : List Nat) (w1 w2 m : Nat) (s t : State), s.fifo = [] → 0 < w1 → 0 < w2 → (∀ v ∈ V, v < 2 ^ w1) →
    s.hasRoom (V.length * w1) → exec (.bsWriteAll V w1) s = .next t → (m + 1) * w2 ≤ V.length * w1 →
    ∃ u u', execAll (List.replicate m (.bsRead w2)) t = .next u ∧ exec (.bsRead w2) u = .next u' ∧
      u'.responses = u.responses ++
        [⟨0x0, [.int (((V.zipIdx.map fun vk => vk.1 * 2 ^ (vk.2 * w1)).sum) / 2 ^ (m * w2) % 2 ^ w2)]⟩]

/-- 30_encoding R70 (a), (b): the burst commands of the FIFO are sequences of the single ones. -/
def Obligations.BurstsEqualSingleCommands : Prop :=
  (∀ (vs : List Nat) (w : Nat) (s : State), s.hasRoom (vs.length * w) →
    ∃ t u, execAll (vs.map fun v => .bsWrite v w) s = .next t ∧ exec (.bsWriteAll vs w) s = .next u ∧
      t.fifo = u.fifo) ∧
  (∀ (w : Nat) (s : State), 0 < w → ∃ (words : List Nat) (t u : State),
    execAll (List.replicate (s.fifo.length / w) (.bsRead w)) s = .next t ∧ exec (.bsReadAll w) s = .next u ∧
    t.fifo = u.fifo ∧ t.responses = s.responses ++ words.map (fun v => ⟨0x0, [.int v]⟩) ∧
    u.responses = s.responses ++ [⟨0x0, .cnt words.length :: words.map .int⟩])

/-! ### The rotation register, the tables and the quantizer -/

/-- 41_constellation R108, 10_state R23: every real number that a beat carries is legal, whatever expression spells
it. -/
def Obligations.RotSetWritesRot : Prop :=
  ∀ (theta : RealExpr) (s : State), decode 0x5000 [.real theta] = .ok (.rotSet theta) ∧
    exec (.rotSet theta) s = .next ({ s with rot := theta }.answered 0x0 [])

/-- 41_constellation R109: the value last written, unchanged; writes nothing. -/
def Obligations.RotGetReadsRot : Prop :=
  decode 0x6000 [] = .ok .rotGet ∧
  (∀ s : State, exec .rotGet s = .next (s.answered 0x0 [.real s.rot])) ∧
  (∀ (theta : RealExpr) (s : State) (is : List Instr) (t : State), (∀ i ∈ is, ∀ x, i ≠ .rotSet x) →
    execAll (.rotSet theta :: is) s = .next t → exec .rotGet t = .next (t.answered 0x0 [.real theta])) ∧
  (∀ (c : Config) (is : List Instr) (t : State), (∀ i ∈ is, ∀ x, i ≠ .rotSet x) →
    execAll is (State.resetOf c) = .next t → exec .rotGet t = .next (t.answered 0x0 [.real (.rat 0)]))

/-- 10_state R23: ROT is written by ROT.SET and by reset only. -/
def Obligations.OnlyRotSetAndResetWriteRot : Prop :=
  ∀ (s t : State), step s = .next t → t.rot ≠ s.rot →
    (∃ rest, s.inbox = .reset :: rest) ∨
    ∃ h beats rest, s.inbox = .command h beats :: rest ∧ decode h beats = .ok (.rotSet t.rot)

/-- 41_constellation R105, with the table of R103. -/
def Obligations.TabModReadsTable : Prop :=
  ∀ (symbol : Nat) (s : State), decode 0x7000 [.int symbol] = .ok (.tabMod symbol) ∧
    (s.cfg.order ≤ symbol → exec (.tabMod symbol) s = .next (s.answered 0x9 [.cnt 0])) ∧
    (symbol < s.cfg.order → ∃ z : Cplx, z.val = modtabVal s.cfg symbol ∧
      exec (.tabMod symbol) s = .next (s.answered 0x0 [.cplx z]))

/-- 41_constellation R106, with the grid of R101. -/
def Obligations.TabDemReadsGrid : Prop :=
  ∀ (row col : Nat) (s : State), decode 0x8000 [.int row, .int col] = .ok (.tabDem row col) ∧
    (s.cfg.dim ≤ row ∨ s.cfg.dim ≤ col → exec (.tabDem row col) s = .next (s.answered 0xA [.cnt 0])) ∧
    (row < s.cfg.dim → col < s.cfg.dim →
      exec (.tabDem row col) s = .next (s.answered 0x0 [.int (col + row * s.cfg.dim)]))

/-- 41_constellation R101, R116: every symbol stands exactly once in the grid, and the grid inverts the table's
layout, through the commands that read them. -/
def Obligations.GridInvertsTableLayout : Prop :=
  ∀ s : State,
    (∀ k, k < s.cfg.order → ∃! rc : Nat × Nat, rc.1 < s.cfg.dim ∧ rc.2 < s.cfg.dim ∧
      exec (.tabDem rc.1 rc.2) s = .next (s.answered 0x0 [.int k])) ∧
    (∀ k, k < s.cfg.order →
      exec (.tabDem (k / s.cfg.dim) (k % s.cfg.dim)) s = .next (s.answered 0x0 [.int k])) ∧
    (∀ r k, r < s.cfg.dim → k < s.cfg.dim → ∃ z : Cplx,
      exec (.tabMod (k + r * s.cfg.dim)) s = .next (s.answered 0x0 [.cplx z]) ∧
      z.val = ⟨(2 * (k : ℝ) - s.cfg.dim + 1) / ((s.cfg.dim : ℝ) - 1),
        (2 * (r : ℝ) - s.cfg.dim + 1) / ((s.cfg.dim : ℝ) - 1)⟩)

/-- 41_constellation R114, R115: every component lies in `[-1, 1]`, and the corners are the extreme points. -/
def Obligations.TableIsNormalisedWithCorners : Prop :=
  ∀ c : Config,
    (∀ k, k < c.order → |(modtab c k).val.re| ≤ 1 ∧ |(modtab c k).val.im| ≤ 1) ∧
    (modtab c 0).val = ⟨-1, -1⟩ ∧ (modtab c (c.order - 1)).val = ⟨1, 1⟩ ∧
    (modtab c (c.dim - 1)).val = ⟨1, -1⟩ ∧ (modtab c (c.order - c.dim)).val = ⟨-1, 1⟩

/-- 41_constellation R107 over the reals, for every sample: QUANT answers row and column that the rule allows for the
complex number the sample stands for, or OutOfRange where the rule allows the fault. -/
def Obligations.QuantAgreesWithReals : Prop :=
  ∀ (p : Cplx) (s : State), decode 0x9000 [.cplx p] = .ok (.quant p) ∧
    ((∃ q i d, SampleGives s.cfg p.val q i ∧
      exec (.quant p) s = .next { s with responses := s.responses ++ [⟨0x0, [.int q, .int i]⟩], draws := d }) ∨
    (∃ d, SampleFaults s.cfg p.val ∧
      exec (.quant p) s = .next { s with responses := s.responses ++ [⟨0xA, [.cnt 0]⟩], draws := d }))

/-- 41_constellation R107 for a pair of reals `(x, y)`, under every scale and order: row from `y` and column from `x`. -/
def Obligations.QuantOfPairOfReals : Prop :=
  ∀ (x y : RealExpr) (s : State),
    (∃ q i d, SampleGives s.cfg ⟨x.val, y.val⟩ q i ∧ exec (.quant (Cplx.ofNums x y)) s =
      .next { s with responses := s.responses ++ [⟨0x0, [.int q, .int i]⟩], draws := d }) ∨
    (∃ d, SampleFaults s.cfg ⟨x.val, y.val⟩ ∧ exec (.quant (Cplx.ofNums x y)) s =
      .next { s with responses := s.responses ++ [⟨0xA, [.cnt 0]⟩], draws := d })

/-- 41_constellation R107 (b), R113 (a): with `R = 1` every sample of the square quantizes, to a grid point nearest on
each axis. -/
def Obligations.QuantCompletesUnderScaleOne : Prop :=
  ∀ (p : Cplx) (s : State), s.cfg.scale.val = 1 → |p.val.re| ≤ 1 → |p.val.im| ≤ 1 →
    ∃ q i d, exec (.quant p) s = .next { s with responses := s.responses ++ [⟨0x0, [.int q, .int i]⟩], draws := d } ∧
      q < s.cfg.dim ∧ i < s.cfg.dim ∧
      |p.val.re - (2 * (i : ℝ) - s.cfg.dim + 1) / ((s.cfg.dim : ℝ) - 1)| ≤ 1 / ((s.cfg.dim : ℝ) - 1) ∧
      |p.val.im - (2 * (q : ℝ) - s.cfg.dim + 1) / ((s.cfg.dim : ℝ) - 1)| ≤ 1 / ((s.cfg.dim : ℝ) - 1)

/-- 41_constellation R113: a coordinate that is a table component, however it is spelled, rounds to its own index,
whatever TIE, exactly under the stated condition; with `R = 1` every index meets it, with `R = sqrt 2 / 2` all do
exactly for `DIM <= 3`. -/
def Obligations.QuantizerInvertsTableExactlyWhen : Prop :=
  (∀ (c : Config) (k : Nat) (v : RealExpr), k < c.dim → v.val = comp c k →
    (gridRounding c v = .nearest k ↔ Inverts c k)) ∧
  (∀ c : Config, c.scale.val = 1 → ∀ k, k < c.dim → Inverts c k) ∧
  (∀ c : Config, c.scale.val = Real.sqrt 2 / 2 → ((∀ k, k < c.dim → Inverts c k) ↔ c.dim ≤ 3))

/-- 41_constellation R107, R110, 70_reset_and_hazards R170: the range test of every number, and of either coordinate of
any complex value, is that of the real number, the bounds included. -/
def Obligations.RangeTestIsThatOfTheReals : Prop :=
  (∀ x : RealExpr, x.inUnit = true ↔ -1 ≤ x.val ∧ x.val ≤ 1) ∧
  (∀ z : Cplx, (z.reCoord.inUnit = true ↔ -1 ≤ z.val.re ∧ z.val.re ≤ 1) ∧
    (z.imCoord.inUnit = true ↔ -1 ≤ z.val.im ∧ z.val.im ≤ 1)) ∧
  (∀ (z : Cplx) (theta : RealExpr), (z.rotate (Angle.ofNum theta)).val = z.val * rotor theta.val ∧
    (((z.rotate (Angle.ofNum theta)).rotate (Angle.ofNum theta).neg).reCoord.inUnit = true ↔ |z.val.re| ≤ 1))

/-- 41_constellation R111 on every number, and on every number scaled as QUANT scales it: the nearest integer where there
is one, a tie exactly at a half, and then one of the two neighbours whatever the free choice is (log 5). -/
def Obligations.RoundingIsThatOfTheReals : Prop :=
  ∀ (c : Config) (v : RealExpr) (r : Rounding) (x : ℝ),
    (r = v.rounding ∧ x = v.val) ∨ (r = gridRounding c v ∧ x = gridReal c v.val) →
    (∀ n : ℤ, r = .nearest n ↔ |x - n| < 1 / 2) ∧
    (∀ n : ℤ, r = .tie n ↔ x = n + 1 / 2) ∧
    (∀ (n : ℤ) (k : Nat), x = n + 1 / 2 → r.atDraw k = n ∨ r.atDraw k = n + 1)

/-- 41_constellation R110: the sign of every number, and with it the order of every two, is that of the reals. -/
def Obligations.SignsAreThoseOfTheReals : Prop :=
  ∀ x : RealExpr, (x.sign = .lt ↔ x.val < 0) ∧ (x.sign = .eq ↔ x.val = 0) ∧ (x.sign = .gt ↔ 0 < x.val)

/-- 20_memory R47: the commands without side effect, issued twice, answer the same twice; for QUANT, IQ.DEM and
DEMODULATE off the exact ties of their samples. ROT.SET twice leaves what it leaves once. -/
def Obligations.RepeatedCommandsAnswerTheSame : Prop :=
  (∀ (i : Instr) (s : State),
    (i = .rotGet ∨ (∃ x, i = .tabMod x ∨ i = .iqMod x) ∨ (∃ a b, i = .tabDem a b) ∨ (∃ l, i = .modulate l) ∨
      (∃ p, i = .quant p ∧ OffTies s.cfg p.val) ∨
      (∃ p, i = .iqDem p ∧ OffTies s.cfg (p.val * rotor (-s.rot.val))) ∨
      ∃ ps, i = .demodulate ps ∧ ∀ p ∈ ps, OffTies s.cfg (p.val * rotor (-s.rot.val))) →
    ∃ t r, execAll [i, i] s = .next t ∧ t.responses = s.responses ++ [r, r] ∧ t.fifo = s.fifo ∧ t.rot = s.rot) ∧
  (∀ (theta : RealExpr) (s : State), ∃ t u, exec (.rotSet theta) s = .next t ∧
    execAll [.rotSet theta, .rotSet theta] s = .next u ∧ u.rot = t.rot ∧ u.fifo = t.fifo)

/-! ### The per-symbol commands -/

/-- 42_iq_mod_dem R120: the table's point times the rotor, over the complex numbers. -/
def Obligations.IqModRotatesTablePoint : Prop :=
  ∀ (symbol : Nat) (s : State), decode 0xA000 [.int symbol] = .ok (.iqMod symbol) ∧
    (s.cfg.order ≤ symbol → exec (.iqMod symbol) s = .next (s.answered 0x9 [.cnt 0])) ∧
    (symbol < s.cfg.order → ∃ z : Cplx, z.val = modtabVal s.cfg symbol * rotor s.rot.val ∧
      exec (.iqMod symbol) s = .next (s.answered 0x0 [.cplx z]))

/-- 42_iq_mod_dem R121 over the reals, for every sample and every rotation: IQ.DEM answers the symbol of indices that
the rule allows for the de-rotated point, or OutOfRange where it allows the fault. -/
def Obligations.IqDemAgreesWithReals : Prop :=
  ∀ (p : Cplx) (s : State), decode 0xB000 [.cplx p] = .ok (.iqDem p) ∧
    ((∃ q i d, SampleGives s.cfg (p.val * rotor (-s.rot.val)) q i ∧ i + q * s.cfg.dim < s.cfg.order ∧
      exec (.iqDem p) s =
        .next { s with responses := s.responses ++ [⟨0x0, [.int (i + q * s.cfg.dim)]⟩], draws := d }) ∨
    (∃ d, SampleFaults s.cfg (p.val * rotor (-s.rot.val)) ∧
      exec (.iqDem p) s = .next { s with responses := s.responses ++ [⟨0xA, [.cnt 0]⟩], draws := d }))

/-- 42_iq_mod_dem R122: IQ.DEM undoes IQ.MOD under the same rotation, whatever it is, for a symbol both of whose
indices invert; and a symbol that comes back has no index beyond the condition's bound. -/
def Obligations.IqDemUndoesIqMod : Prop :=
  ∀ (symbol : Nat) (s t : State), symbol < s.cfg.order → t.cfg = s.cfg → t.rot = s.rot →
    ∃ (z : Cplx) (r : Response) (d : Nat), exec (.iqMod symbol) s = .next (s.answered 0x0 [.cplx z]) ∧
      exec (.iqDem z) t = .next { t with responses := t.responses ++ [r], draws := d } ∧
      (Inverts s.cfg (symbol % s.cfg.dim) → Inverts s.cfg (symbol / s.cfg.dim) → r = ⟨0x0, [.int symbol]⟩) ∧
      (r = ⟨0x0, [.int symbol]⟩ → ∀ k, k = symbol % s.cfg.dim ∨ k = symbol / s.cfg.dim →
        |((k : ℝ) - ((s.cfg.dim : ℝ) - 1) / 2) * (1 / s.cfg.scale.val - 1)| ≤ 1 / 2)

/-! ### The pipeline commands -/

/-- 43_modulate_demodulate R130: bytes to samples, or the first chunk that is no symbol. -/
def Obligations.ModulateMapsChunks : Prop :=
  ∀ (data : List Nat) (s : State) (c : Nat), c = 8 * data.length / s.cfg.dim →
    decode 0xC000 (.cnt data.length :: data.map .int) = .ok (.modulate data) ∧
    ((∀ k, k < c → chunkVal data 8 s.cfg.dim k < s.cfg.order) → ∃ ps : List Cplx, ps.length = c ∧
      (∀ k, k < c → ∃ p, ps[k]? = some p ∧
        p.val = modtabVal s.cfg (chunkVal data 8 s.cfg.dim k) * rotor s.rot.val) ∧
      exec (.modulate data) s = .next (s.answered 0x0 (.cnt c :: ps.map .cplx))) ∧
    (∀ k, k < c → s.cfg.order ≤ chunkVal data 8 s.cfg.dim k →
      (∀ j, j < k → chunkVal data 8 s.cfg.dim j < s.cfg.order) →
      exec (.modulate data) s = .next (s.answered 0x9 [.cnt k])) ∧
    (s.cfg.dim ≤ 4 → ∀ k, chunkVal data 8 s.cfg.dim k < s.cfg.order)

/-- 43_modulate_demodulate R130, 41_constellation R104: for `DIM` 2, 3 and 4 every chunk is a symbol and MODULATE
never faults. -/
def Obligations.ModulateNeverFaultsUpToDimFour : Prop :=
  ∀ (data : List Nat) (s : State), s.cfg.dim ≤ 4 → ∃ ps : List Cplx,
    exec (.modulate data) s = .next (s.answered 0x0 (.cnt ps.length :: ps.map .cplx)) ∧
    ps.length = 8 * data.length / s.cfg.dim

/-- 43_modulate_demodulate R131, R132: samples to bytes over the reals, or the first sample that faults, for every
samples and every rotation. -/
def Obligations.DemodulateAgreesWithReals : Prop :=
  ∀ (samples : List Cplx) (s : State),
    decode 0xD000 (.cnt samples.length :: samples.map .cplx) = .ok (.demodulate samples) ∧ ∃ (r : Response) (d : Nat),
    exec (.demodulate samples) s = .next { s with responses := s.responses ++ [r], draws := d } ∧
    ((∃ syms bytes : List Nat, syms.length = samples.length ∧
        (∀ k (hk : k < samples.length), ∃ q i, syms[k]? = some (i + q * s.cfg.dim) ∧
          SampleGives s.cfg (samples[k].val * rotor (-s.rot.val)) q i) ∧
        bytes.length = samples.length * s.cfg.dim / 8 ∧
        (∀ k, k < bytes.length → bytes[k]? = some (chunkVal syms s.cfg.dim 8 k)) ∧
        r = ⟨0x0, .cnt bytes.length :: bytes.map .int⟩) ∨
     (∃ (k : Nat) (hk : k < samples.length), SampleFaults s.cfg (samples[k].val * rotor (-s.rot.val)) ∧
        (∀ j (hj : j < k), ∃ q i, SampleGives s.cfg (samples[j].val * rotor (-s.rot.val)) q i) ∧
        r = ⟨0xA, [.cnt k]⟩))

/-- IQ.DEM and DEMODULATE complete: with `R = 1`, where every de-rotated sample lies in the square (41_constellation
R107 b, 42_iq_mod_dem R121, 43_modulate_demodulate R131, R132). -/
def Obligations.DemappingCompletesUnderScaleOne : Prop :=
  ∀ s : State, s.cfg.scale.val = 1 →
    (∀ p : Cplx, |(p.val * rotor (-s.rot.val)).re| ≤ 1 → |(p.val * rotor (-s.rot.val)).im| ≤ 1 →
      ∃ symbol d, symbol < s.cfg.order ∧
        exec (.iqDem p) s = .next { s with responses := s.responses ++ [⟨0x0, [.int symbol]⟩], draws := d }) ∧
    (∀ samples : List Cplx, (∀ p ∈ samples, |(p.val * rotor (-s.rot.val)).re| ≤ 1 ∧
      |(p.val * rotor (-s.rot.val)).im| ≤ 1) →
      ∃ (bytes : List Nat) (d : Nat), bytes.length = samples.length * s.cfg.dim / 8 ∧ (∀ b ∈ bytes, b < 256) ∧
        exec (.demodulate samples) s = .next { s with
          responses := s.responses ++ [⟨0x0, .cnt bytes.length :: bytes.map .int⟩], draws := d })

/-- 43_modulate_demodulate R133, R134: the exact round trip, for every rotation. -/
def Obligations.DemodulateUndoesModulate : Prop :=
  ∀ (D : List Nat) (s : State), (∀ v ∈ D, v < 256) → 8 * D.length % s.cfg.dim = 0 →
    (∀ k, k < 8 * D.length / s.cfg.dim → chunkVal D 8 s.cfg.dim k < s.cfg.order ∧
      Inverts s.cfg (chunkVal D 8 s.cfg.dim k % s.cfg.dim) ∧ Inverts s.cfg (chunkVal D 8 s.cfg.dim k / s.cfg.dim)) →
    ∃ (ps : List Cplx) (t u : State), exec (.modulate D) s = .next t ∧
      t.responses = s.responses ++ [⟨0x0, .cnt ps.length :: ps.map .cplx⟩] ∧
      exec (.demodulate ps) t = .next u ∧
      u.responses = t.responses ++ [⟨0x0, .cnt D.length :: D.map .int⟩]

/-- 43_modulate_demodulate R133's table: the configurations in which every byte sequence of suitable length makes the
round trip: `R = 1` with `DIM` 2, 3, 4, and `R = sqrt 2 / 2` with `DIM` 2, 3. -/
def Obligations.RoundTripForEverySuitableData : Prop :=
  ∀ (D : List Nat) (s : State), (∀ v ∈ D, v < 256) → 8 * D.length % s.cfg.dim = 0 →
    (s.cfg.scale.val = 1 ∧ s.cfg.dim ≤ 4) ∨ (s.cfg.scale.val = Real.sqrt 2 / 2 ∧ s.cfg.dim ≤ 3) →
    ∃ (ps : List Cplx) (t u : State), exec (.modulate D) s = .next t ∧
      t.responses = s.responses ++ [⟨0x0, .cnt ps.length :: ps.map .cplx⟩] ∧
      exec (.demodulate ps) t = .next u ∧
      u.responses = t.responses ++ [⟨0x0, .cnt D.length :: D.map .int⟩]

/-- 43_modulate_demodulate R135: two calls equal one on the joined data when the first leaves no partial chunk. -/
def Obligations.ModulateSplitsAtWholeChunks : Prop :=
  ∀ (X Y : List Nat) (s : State) (ps qs : List Cplx), 8 * X.length % s.cfg.dim = 0 →
    exec (.modulate X) s = .next (s.answered 0x0 (.cnt ps.length :: ps.map .cplx)) →
    exec (.modulate Y) s = .next (s.answered 0x0 (.cnt qs.length :: qs.map .cplx)) →
    exec (.modulate (X ++ Y)) s = .next (s.answered 0x0 (.cnt (ps ++ qs).length :: (ps ++ qs).map .cplx))

/-! ### Whole-machine rules -/

/-- 60_exceptions R141: which commands answer which status, and the `info` beat. -/
def Obligations.StatusesComeFromTheirCommands : Prop :=
  ∀ (i : Instr) (s t : State), exec i s = .next t → ∃ r : Response, t.responses = s.responses ++ [r] ∧
    (r.status = 0x0 ∨
     (r = ⟨0x1, []⟩ ∧ s.fifo = [] ∧ ∃ w, i = .bsRead w) ∨
     (r = ⟨0x8, [.cnt 0]⟩ ∧ ∃ w, widthOf i = some w ∧ w < 0) ∨
     (r = ⟨0x9, [.cnt 0]⟩ ∧ ∃ k, s.cfg.order ≤ k ∧ (i = .tabMod k ∨ i = .iqMod k)) ∨
     (∃ k data, r = ⟨0x9, [.cnt k]⟩ ∧ i = .modulate data ∧ 5 ≤ s.cfg.dim) ∨
     (r = ⟨0xA, [.cnt 0]⟩ ∧ ((∃ a b, i = .tabDem a b) ∨ (∃ p, i = .quant p) ∨ ∃ p, i = .iqDem p)) ∨
     (∃ k ps, r = ⟨0xA, [.cnt k]⟩ ∧ i = .demodulate ps ∧ k < ps.length) ∨
     (r = ⟨0xB, [.cnt 0]⟩ ∧ i = .bsReadAll 0) ∨
     (r = ⟨0xC, [.cnt 0]⟩ ∧ s.cfg.depth ≠ none ∧ ((∃ v w, i = .bsWrite v w) ∨ ∃ vs w, i = .bsWriteAll vs w)))

/-- 60_exceptions R142: InvalidWidth is answered exactly by the FIFO commands with a negative width, whatever the
state; in the encoding, exactly by those whose width field has bit 11 set. -/
def Obligations.InvalidWidthExactlyForNegativeWidths : Prop :=
  (∀ (i : Instr) (s : State), exec i s = .next (s.answered 0x8 [.cnt 0]) ↔ ∃ w, widthOf i = some w ∧ w < 0) ∧
  (∀ (h : Header) (beats : List Beat) (i : Instr) (w : Int),
    decode h beats = .ok i → widthOf i = some w → (w < 0 ↔ h.getLsbD 11 = true))

/-- 60_exceptions R143: InvalidSymbol is answered exactly by a symbol operand, or by MODULATE's first chunk, that is not
below ORDER; by a chunk only from DIM 5 on. -/
def Obligations.InvalidSymbolExactlyFromOrderUp : Prop :=
  (∀ (i : Instr) (s : State) (k : Nat), exec i s = .next (s.answered 0x9 [.cnt k]) ↔
    (k = 0 ∧ ∃ x, s.cfg.order ≤ x ∧ (i = .tabMod x ∨ i = .iqMod x)) ∨
    ∃ data, i = .modulate data ∧ k < 8 * data.length / s.cfg.dim ∧ s.cfg.order ≤ chunkVal data 8 s.cfg.dim k ∧
      ∀ j, j < k → chunkVal data 8 s.cfg.dim j < s.cfg.order) ∧
  (∀ (data : List Nat) (s : State) (k : Nat), s.cfg.order ≤ chunkVal data 8 s.cfg.dim k → 5 ≤ s.cfg.dim)

/-- 60_exceptions R145: ZeroWidth is answered exactly by `BS.READALL 0`, whatever the state. -/
def Obligations.ZeroWidthExactlyForReadAllZero : Prop :=
  ∀ (i : Instr) (s : State), exec i s = .next (s.answered 0xB [.cnt 0]) ↔ i = .bsReadAll 0

/-- 60_exceptions R147, 40_bitstream R88: FifoOverflow is answered exactly by a write whose bits would not all fit a
finite DEPTH. -/
def Obligations.FifoOverflowExactlyWithoutRoom : Prop :=
  ∀ (i : Instr) (s : State), exec i s = .next (s.answered 0xC [.cnt 0]) ↔
    ∃ n d, s.cfg.depth = some d ∧ d < s.fifo.length + n ∧
      ((∃ v, i = .bsWrite v n) ∨ ∃ (vs : List Nat) (w : Nat), n = vs.length * w ∧ i = .bsWriteAll vs w)

/-- 60_exceptions R148: NoData is answered exactly by `BS.READ` on an empty FIFO, changes nothing and is no fault;
`BS.READ 0` on a FIFO that holds bits answers the word 0, `BS.READALL` on an empty one the empty sequence. -/
def Obligations.NoDataExactlyForReadOfEmptyFifo : Prop :=
  isFault 0x1 = false ∧
  (∀ (i : Instr) (s : State), exec i s = .next (s.answered 0x1 []) ↔ s.fifo = [] ∧ ∃ w : Nat, i = .bsRead w) ∧
  (∀ s : State, s.fifo ≠ [] → exec (.bsRead 0) s = .next (s.answered 0x0 [.int 0])) ∧
  (∀ (w : Nat) (s : State), 0 < w → s.fifo = [] → exec (.bsReadAll w) s = .next (s.answered 0x0 [.cnt 0]))

/-- 60_exceptions R151: a faulting command writes no architectural state and returns only `info`; the same where the
decoder faults. -/
def Obligations.FaultsArePrecise : Prop :=
  (∀ (i : Instr) (s t : State) (r : Response), exec i s = .next t → t.responses = s.responses ++ [r] →
    isFault r.status = true → t.fifo = s.fifo ∧ t.rot = s.rot ∧ t.cfg = s.cfg ∧ ∃ info, r.beats = [.cnt info]) ∧
  (∀ (s t : State) (h : Header) (beats : List Beat) (rest : List HostEvent), s.inbox = .command h beats :: rest →
    SpellsNone h → step s = .next t →
    t.fifo = s.fifo ∧ t.rot = s.rot ∧ t.cfg = s.cfg ∧ t.responses = s.responses ++ [⟨0xF, [.cnt 0]⟩])

/-- 10_state R28, R23: the commands that are not the FIFO's neither read nor change F, and those that do not read ROT
do the same whatever it holds. -/
def Obligations.FifoAndModulatorAreIndependent : Prop :=
  (∀ (i : Instr) (s t : State) (f : Bits), isBsCommand i = false → exec i s = .next t →
    exec i { s with fifo := f } = .next { t with fifo := f }) ∧
  (∀ (i : Instr) (s t : State) (theta : RealExpr), readsRot i = false → (∀ x, i ≠ .rotSet x) → exec i s = .next t →
    exec i { s with rot := theta } = .next { t with rot := theta })

/-- 00_scope R5, 10_state R31 (c): no step changes the parameters, hence the tables. -/
def Obligations.ParametersNeverChange : Prop :=
  ∀ s t : State, step s = .next t → t.cfg = s.cfg

/-- 10_state R31 (b): every step keeps F within its capacity. -/
def Obligations.StepKeepsFifoWithinDepth : Prop :=
  ∀ s t : State, s.withinDepth → step s = .next t → t.withinDepth

/-- 10_state R30, R31: F is within its capacity, and nothing is ill framed, right after reset. -/
def Obligations.ResetIsSafe : Prop :=
  (∀ c : Config, (State.resetOf c).withinDepth ∧ (State.resetOf c).Safe) ∧ State.reset.Safe

/-- 60_exceptions R152, R155, 70_reset_and_hazards R176: from a safe state (F within its capacity, the host's
transactions well framed) every step answers a next state, and it is safe. -/
def Obligations.SafeStatesStepToSafeStates : Prop :=
  ∀ s : State, s.Safe → ∃ t, step s = .next t ∧ t.Safe

/-- 60_exceptions R155 (b): the step refuses exactly an ill-framed transaction, and for no other reason. -/
def Obligations.OnlyIllFramedTransactionsAreRefused : Prop :=
  ∀ (s : State) (r : Refusal), step s = .refused r ↔ r = .malformedTransaction ∧
    ((∃ bs rest, s.inbox = .strayBeats bs :: rest) ∨
     ∃ h bs rest, s.inbox = .command h bs :: rest ∧ ¬ SpellsNone h ∧
       ∀ i : Instr, i.wellFormed = true → encode i ≠ (h, bs))
end

