-- ==== Sys2Proof/Laws/Bits.lean ====
section
/-!
SUPPORT. Bit sequences: decomposition and value are inverse, and what a cut into groups reads.
-/

namespace Sys2Proof

/-- `bit v i` is the Nat library's test of bit `i`. -/
theorem bit_eq_testBit (v i : Nat) : bit v i = v.testBit i := by
  rw [Nat.testBit_eq_decide_div_mod_eq, bit]; rfl

@[simp] theorem lsbits_length (v w : Nat) : (lsbits v w).length = w := by simp [lsbits]

@[simp] theorem lsbits_zero (v : Nat) : lsbits v 0 = [] := rfl

theorem lsbits_getElem? (v w i : Nat) (h : i < w) : (lsbits v w)[i]? = some (v.testBit i) := by
  simp [lsbits, h, bit_eq_testBit]

theorem lsbits_succ (v w : Nat) : lsbits v (w + 1) = v.testBit 0 :: lsbits (v / 2) w := by
  simp only [lsbits, List.range_succ_eq_map, List.map_cons, List.map_map]
  congr 1
  · exact bit_eq_testBit v 0
  · apply List.map_congr_left
    intro i _
    simp [bit_eq_testBit, Nat.testBit_succ]

@[simp] theorem bitsVal_nil : bitsVal [] = 0 := rfl

theorem bitsVal_cons (b : Bool) (s : Bits) : bitsVal (b :: s) = (if b then 1 else 0) + 2 * bitsVal s := rfl

theorem bitsVal_append (s t : Bits) : bitsVal (s ++ t) = bitsVal s + 2 ^ s.length * bitsVal t := by
  induction s with
  | nil => simp
  | cons b s ih => rw [List.cons_append, bitsVal_cons, bitsVal_cons, ih, List.length_cons]; ring

theorem bitsVal_lt (s : Bits) : bitsVal s < 2 ^ s.length := by
  induction s with
  | nil => simp
  | cons b s ih => rw [bitsVal_cons, List.length_cons, pow_succ]; split <;> omega

/-- `val(lsbits(v, w)) = v mod 2^w` (00_scope R11). -/
theorem bitsVal_lsbits (v w : Nat) : bitsVal (lsbits v w) = v % 2 ^ w := by
  induction w generalizing v with
  | zero => simp [Nat.mod_one]
  | succ w ih =>
    rw [lsbits_succ, bitsVal_cons, ih, pow_succ', Nat.mod_mul]
    congr 1
    rcases Nat.mod_two_eq_zero_or_one v with h | h <;> simp [Nat.testBit_zero, h]

/-- `lsbits(val(s), len(s)) = s` (00_scope R11). -/
theorem lsbits_bitsVal (s : Bits) : lsbits (bitsVal s) s.length = s := by
  induction s with
  | nil => rfl
  | cons b s ih =>
    rw [List.length_cons, lsbits_succ, bitsVal_cons]
    have h1 : ((if b then 1 else 0) + 2 * bitsVal s) / 2 = bitsVal s := by split <;> omega
    rw [h1, ih]
    congr 1
    cases b <;> simp [Nat.testBit_zero]

/-- A bit of the value of a sequence is the element at that index. -/
theorem testBit_bitsVal (s : Bits) (i : Nat) : (bitsVal s).testBit i = s.getD i false := by
  by_cases h : i < s.length
  · have := lsbits_getElem? (bitsVal s) s.length i h
    rw [lsbits_bitsVal] at this
    simp [List.getD, this]
  · have h2 : bitsVal s < 2 ^ i := lt_of_lt_of_le (bitsVal_lt s) (Nat.pow_le_pow_right (by norm_num) (not_lt.1 h))
    rw [Nat.testBit_lt_two_pow h2, List.getD_eq_default _ _ (not_lt.1 h)]

@[simp] theorem lsbitsAll_nil (w : Nat) : lsbitsAll [] w = [] := rfl

@[simp] theorem lsbitsAll_cons (v : Nat) (vs : List Nat) (w : Nat) :
    lsbitsAll (v :: vs) w = lsbits v w ++ lsbitsAll vs w := rfl

@[simp] theorem lsbitsAll_append (us vs : List Nat) (w : Nat) :
    lsbitsAll (us ++ vs) w = lsbitsAll us w ++ lsbitsAll vs w := by simp [lsbitsAll]

@[simp] theorem lsbitsAll_length (vs : List Nat) (w : Nat) : (lsbitsAll vs w).length = vs.length * w := by
  induction vs with
  | nil => simp
  | cons v vs ih => simp [ih]; ring

/-- Bit `j` of a written stream (20_memory R40, R41). -/
theorem lsbitsAll_getElem? (vs : List Nat) (w j : Nat) (h : j < vs.length * w) :
    (lsbitsAll vs w)[j]? = some (streamBit vs w j) := by
  induction vs generalizing j with
  | nil => simp at h
  | cons v vs ih =>
    have hw : 0 < w := by
      rcases Nat.eq_zero_or_pos w with h0 | h0
      · subst h0; simp at h
      · exact h0
    rw [lsbitsAll_cons]
    by_cases hj : j < w
    · rw [List.getElem?_append_left (by simpa using hj), lsbits_getElem? v w j hj]
      simp [streamBit, Nat.div_eq_of_lt hj, Nat.mod_eq_of_lt hj]
    · have hj' : w ≤ j := not_lt.1 hj
      rw [List.getElem?_append_right (by simpa using hj'), lsbits_length, ih (j - w) (by
        rw [List.length_cons, Nat.succ_mul] at h; omega)]
      obtain ⟨m, rfl⟩ := Nat.exists_eq_add_of_le hj'
      simp only [Nat.add_sub_cancel_left, streamBit, Nat.add_mod_left, Nat.add_div_left m hw, List.getD_cons_succ]

/-- The value of a run of a sequence, over its indices (00_scope R11). -/
theorem bitsVal_drop_take (s : Bits) (k n : Nat) : bitsVal ((s.drop k).take n) = windowVal s k n := by
  induction n generalizing k with
  | zero => simp [windowVal]
  | succ n ih =>
    have hw : windowVal s k (n + 1) = (if s[k]? = some true then 1 else 0) + 2 * windowVal s (k + 1) n := by
      simp only [windowVal, List.range_succ_eq_map, List.map_cons, List.map_map, List.sum_cons, Nat.add_zero, pow_zero]
      congr 1
      rw [← List.sum_map_mul_left]
      congr 1
      apply List.map_congr_left
      intro i _
      simp only [Function.comp]
      have : k + (i + 1) = k + 1 + i := by ring
      rw [Nat.succ_eq_add_one, this, pow_succ]
      split <;> ring
    rw [hw, ← ih (k + 1)]
    by_cases hk : k < s.length
    · rw [List.drop_eq_getElem_cons hk, List.take_succ_cons, bitsVal_cons]
      simp [hk]
    · have hk' : s.length ≤ k := not_lt.1 hk
      rw [List.drop_eq_nil_of_le hk', List.drop_eq_nil_of_le (by omega), List.getElem?_eq_none hk']
      simp

@[simp] theorem groups_length (w : Nat) (s : Bits) : (groups w s).length = s.length / w := by
  simp [groups, groupCount]

/-- Word `k` of a cut into groups (40_bitstream R83). -/
theorem groups_getElem? (w : Nat) (s : Bits) (k : Nat) (h : k < s.length / w) :
    (groups w s)[k]? = some (windowVal s (k * w) w) := by
  rw [← bitsVal_drop_take]
  simp [groups, groupCount, h]

/-- The first group of a sequence that begins with one. -/
theorem groups_append (w : Nat) (hw : 0 < w) (s t : Bits) (hs : s.length = w) :
    groups w (s ++ t) = bitsVal s :: groups w t := by
  have hl : (s ++ t).length / w = t.length / w + 1 := by
    rw [List.length_append, hs, Nat.add_div_left _ hw]
  simp only [groups, groupCount, hl, List.range_succ_eq_map, List.map_cons, List.map_map]
  congr 1
  · simp [← hs]
  · apply List.map_congr_left
    intro k _
    simp only [Function.comp, Nat.succ_eq_add_one, Nat.add_mul, one_mul]
    rw [show k * w + w = s.length + k * w by omega, ← List.drop_drop, List.drop_left]

theorem groups_short (w : Nat) (s : Bits) (hs : s.length < w) : groups w s = [] := by
  simp [groups, groupCount, Nat.div_eq_of_lt hs]

/-- Reading at the width of writing gives each word's low bits back (40_bitstream R85). -/
theorem groups_lsbitsAll (w : Nat) (hw : 0 < w) (vs : List Nat) :
    groups w (lsbitsAll vs w) = vs.map (· % 2 ^ w) := by
  induction vs with
  | nil => simp [groups, groupCount]
  | cons v vs ih =>
    rw [lsbitsAll_cons, groups_append w hw _ _ (lsbits_length v w), ih, bitsVal_lsbits, List.map_cons]

/-- Cutting a sequence of whole groups and writing the words back gives the sequence. -/
theorem lsbitsAll_groups (w : Nat) (hw : 0 < w) : ∀ (n : Nat) (s : Bits), s.length = n * w →
    lsbitsAll (groups w s) w = s
  | 0, s, h => by
    have : s = [] := List.length_eq_zero_iff.1 (by simpa using h)
    subst this; simp [groups, groupCount]
  | n + 1, s, h => by
    have hl : (s.take w).length = w := by rw [List.length_take, h, Nat.succ_mul]; omega
    have hd : (s.drop w).length = n * w := by rw [List.length_drop, h, Nat.succ_mul]; omega
    conv_lhs => rw [← List.take_append_drop w s]
    have hb := lsbits_bitsVal (s.take w)
    rw [hl] at hb
    rw [groups_append w hw _ _ hl, lsbitsAll_cons, lsbitsAll_groups w hw n _ hd, hb, List.take_append_drop]

/-- Every word of a cut is below `2^w`. -/
theorem groups_lt (w : Nat) (s : Bits) : ∀ v ∈ groups w s, v < 2 ^ w := by
  intro v hv
  simp only [groups, List.mem_map] at hv
  obtain ⟨k, -, rfl⟩ := hv
  refine lt_of_lt_of_le (bitsVal_lt _) (Nat.pow_le_pow_right (by norm_num) ?_)
  exact List.length_take_le _ _

/-- Whole groups of a sequence made of whole groups and more come first. -/
theorem groups_append_whole (w : Nat) (hw : 0 < w) : ∀ (n : Nat) (s t : Bits), s.length = n * w →
    groups w (s ++ t) = groups w s ++ groups w t
  | 0, s, t, h => by
    have : s = [] := List.length_eq_zero_iff.1 (by simpa using h)
    subst this; simp [groups, groupCount]
  | n + 1, s, t, h => by
    have hl : (s.take w).length = w := by rw [List.length_take, h, Nat.succ_mul]; omega
    have hd : (s.drop w).length = n * w := by rw [List.length_drop, h, Nat.succ_mul]; omega
    conv_lhs =>
      rw [← List.take_append_drop w s, List.append_assoc, groups_append w hw _ _ hl, groups_append_whole w hw n _ _ hd]
    conv_rhs => rw [← List.take_append_drop w s, groups_append w hw _ _ hl]
    rfl

/-- A run of a sequence is a digit of its value (40_bitstream R84). -/
theorem bitsVal_window (s : Bits) (k w : Nat) (h : k + w ≤ s.length) :
    bitsVal ((s.drop k).take w) = bitsVal s / 2 ^ k % 2 ^ w := by
  have e1 := bitsVal_append (s.take k) (s.drop k)
  rw [List.take_append_drop, List.length_take, min_eq_left (by omega)] at e1
  have l1 := bitsVal_lt (s.take k)
  rw [List.length_take, min_eq_left (by omega)] at l1
  have e2 := bitsVal_append ((s.drop k).take w) ((s.drop k).drop w)
  rw [List.take_append_drop, List.length_take, List.length_drop, min_eq_left (by omega)] at e2
  have l2 := bitsVal_lt ((s.drop k).take w)
  rw [List.length_take, List.length_drop, min_eq_left (by omega)] at l2
  rw [e1, Nat.add_mul_div_left _ _ (by positivity), Nat.div_eq_of_lt l1, zero_add, e2, Nat.add_mul_mod_self_left,
    Nat.mod_eq_of_lt l2]

end Sys2Proof
end

