-- ==== Sys2Proof/Laws/Compare.lean ====
section
/-!
SUPPORT. The range test and the rounding of every number are those of the real number that it spells.
-/

namespace Sys2Proof

/-- A search whose first attempt answers gives that answer. -/
theorem search_eq_of_some {α : Type} [Nonempty α] {attempt : Nat → Option α} {p : Nat} {a : α}
    (h : attempt p = some a) : search attempt p = a := by rw [search, h]

/-- The sign is that of the real number. -/
theorem RealExpr.sign_spec (x : RealExpr) : SignOf x.sign x.val := by
  unfold RealExpr.sign
  split_ifs with hz
  · rw [← RealExpr.val_form]; exact CosSum.isZero_spec hz
  · exact x.signFound.2

theorem SignOf.eq_lt_iff {o : Ordering} {v : ℝ} (h : SignOf o v) : o = .lt ↔ v < 0 := by
  cases o with
  | lt => simpa using (show v < 0 from h)
  | eq => simpa using (show v = 0 from h).ge
  | gt => simpa using (show 0 < v from h).le

theorem SignOf.eq_gt_iff {o : Ordering} {v : ℝ} (h : SignOf o v) : o = .gt ↔ 0 < v := by
  cases o with
  | lt => simpa using (show v < 0 from h).le
  | eq => simpa using (show v = 0 from h).le
  | gt => simpa using (show 0 < v from h)

/-- The range test is that of the real number (41_constellation R107). -/
theorem RealExpr.inUnit_spec (x : RealExpr) : x.inUnit = true ↔ -1 ≤ x.val ∧ x.val ≤ 1 := by
  rw [RealExpr.inUnit, Bool.and_eq_true, bne_iff_ne, bne_iff_ne, Ne, Ne, (RealExpr.sign_spec _).eq_lt_iff,
    (RealExpr.sign_spec _).eq_gt_iff, not_lt, not_lt]
  simp only [RealExpr.val]; push_cast
  constructor
  · rintro ⟨h1, h2⟩; constructor <;> linarith
  · rintro ⟨h1, h2⟩; constructor <;> linarith

theorem roundingFrom_spec {n : ℤ} {half : Int → Ordering} {v : ℝ} (h1 : (n : ℝ) ≤ v) (h2 : v < n + 2)
    (hh : ∀ m : ℤ, SignOf (half m) (v - (m + 1 / 2))) : (roundingFrom n half).Holds v := by
  have a := hh n
  have b := hh (n + 1)
  push_cast at b
  unfold roundingFrom
  split
  · rename_i ho
    rw [ho] at a
    have : v - (n + 1 / 2) < 0 := a
    simp only [Rounding.Holds]; rw [abs_lt]; constructor <;> linarith
  · rename_i ho
    rw [ho] at a
    have : v - (n + 1 / 2) = 0 := a
    simp only [Rounding.Holds]; linarith
  · rename_i ho
    rw [ho] at a
    have : 0 < v - (n + 1 / 2) := a
    split <;> rename_i ho' <;> rw [ho'] at b
    · have : v - (n + 1 + 1 / 2) < 0 := b
      simp only [Rounding.Holds]; push_cast; rw [abs_lt]; constructor <;> linarith
    · have : v - (n + 1 + 1 / 2) = 0 := b
      simp only [Rounding.Holds]; push_cast; linarith
    · have : 0 < v - (n + 1 + 1 / 2) := b
      simp only [Rounding.Holds]; push_cast; rw [abs_lt]; constructor <;> linarith

/-- The rounding is that of the real number, where the order against a half is (41_constellation R111). -/
theorem RealExpr.roundingFrom_base {x : RealExpr} {half : Int → Ordering}
    (hh : ∀ m : ℤ, SignOf (half m) (x.val - (m + 1 / 2))) : (roundingFrom x.base half).Holds x.val :=
  roundingFrom_spec x.base.2.1 x.base.2.2 hh

theorem RealExpr.halfOrder_spec (x : RealExpr) (m : ℤ) : SignOf (x.halfOrder m) (x.val - (m + 1 / 2)) := by
  have e : x.val - (m + 1 / 2) = (RealExpr.add x (.rat (-(m : Rat) - 1 / 2))).val := by
    simp only [RealExpr.val]; push_cast; ring
  rw [e]; exact RealExpr.sign_spec _

/-- The rounding is that of the real number (41_constellation R111). -/
theorem RealExpr.rounding_spec (x : RealExpr) : x.rounding.Holds x.val :=
  RealExpr.roundingFrom_base x.halfOrder_spec

/-- A real number has one rounding only. -/
theorem Rounding.holds_unique {r r' : Rounding} {x : ℝ} (h : r.Holds x) (h' : r'.Holds x) : r = r' := by
  have key : ∀ m n : ℤ, (n : ℝ) - m < 1 → (-1 : ℝ) < n - m → n = m := by
    intro m n h1 h2
    have h1' : ((n - m : ℤ) : ℝ) < ((1 : ℤ) : ℝ) := by push_cast; exact h1
    have h2' : ((-1 : ℤ) : ℝ) < ((n - m : ℤ) : ℝ) := by push_cast; exact h2
    have h1'' : n - m < 1 := by exact_mod_cast h1'
    have h2'' : -1 < n - m := by exact_mod_cast h2'
    omega
  have half : ∀ {m n : ℤ}, |(m : ℝ) + 1 / 2 - n| < 1 / 2 → False := by
    intro m n h
    rw [abs_lt] at h
    have h1 : ((m - n : ℤ) : ℝ) < ((0 : ℤ) : ℝ) := by push_cast; linarith
    have h2 : ((-1 : ℤ) : ℝ) < ((m - n : ℤ) : ℝ) := by push_cast; linarith
    have h1' : m - n < 0 := by exact_mod_cast h1
    have h2' : -1 < m - n := by exact_mod_cast h2
    omega
  cases r with
  | nearest m =>
    cases r' with
    | nearest n =>
      obtain ⟨h1, h2⟩ := abs_lt.1 (show |x - (m : ℝ)| < 1 / 2 from h)
      obtain ⟨h3, h4⟩ := abs_lt.1 (show |x - (n : ℝ)| < 1 / 2 from h')
      rw [key m n (by linarith) (by linarith)]
    | tie n =>
      rw [show x = (n : ℝ) + 1 / 2 from h'] at h
      exact (half h).elim
  | tie m =>
    cases r' with
    | nearest n =>
      rw [show x = (m : ℝ) + 1 / 2 from h] at h'
      exact (half h').elim
    | tie n =>
      have h1 : x = (m : ℝ) + 1 / 2 := h
      have h2 : x = (n : ℝ) + 1 / 2 := h'
      rw [key m n (by linarith) (by linarith)]

/-- At every draw the answer of `round_T` is one that the spec allows (41_constellation R111). -/
theorem Rounding.atDraw_roundsTo {r : Rounding} {x : ℝ} (h : r.Holds x) (k : Nat) : RoundsTo x (r.atDraw k) := by
  cases r with
  | nearest n => exact (show |x - (n : ℝ)| < 1 / 2 from h).le
  | tie n =>
    have hx : x = (n : ℝ) + 1 / 2 := h
    rw [RoundsTo, hx, abs_le]
    simp only [Rounding.atDraw]
    split_ifs <;> push_cast <;> constructor <;> linarith

end Sys2Proof
end

