-- ==== Sys2Proof/Laws/Coordinates.lean ====
section
/-!
SUPPORT. Rotation and the coordinates of complex values mean what the reference numerics say.
-/

namespace Sys2Proof

/-! ### Phasors -/

@[simp] theorem RealExpr.val_opposite (x : RealExpr) : x.opposite.val = -x.val := by
  cases x <;> simp [RealExpr.opposite, RealExpr.val]

theorem Phasor.val_turn (theta : Angle) (t : Phasor) : (t.turn theta).val = t.val * rotor theta.val := by
  simp only [Phasor.turn, Phasor.val, Angle.val_add, rotor_add]; ring

theorem rotor_half_pi : rotor (Real.pi / 2) = ⟨0, 1⟩ := by simp [rotor]

theorem rotor_quarters (k : ℤ) : rotor ((k : ℝ) * (Real.pi / 2)) =
    if k % 4 = 0 then ⟨1, 0⟩ else if k % 4 = 1 then ⟨0, 1⟩ else if k % 4 = 2 then ⟨-1, 0⟩ else ⟨0, -1⟩ := by
  have hk : (k : ℝ) * (Real.pi / 2) = ((k % 4 : ℤ) : ℝ) * (Real.pi / 2) + ((k / 4 : ℤ) : ℝ) * (2 * Real.pi) := by
    have : (k : ℝ) = ((k % 4 : ℤ) : ℝ) + 4 * ((k / 4 : ℤ) : ℝ) := by exact_mod_cast (Int.emod_add_mul_ediv k 4).symm
    rw [this]; ring
  have hper : rotor ((k : ℝ) * (Real.pi / 2)) = rotor (((k % 4 : ℤ) : ℝ) * (Real.pi / 2)) := by
    rw [hk]; unfold rotor; rw [Real.cos_add_int_mul_two_pi, Real.sin_add_int_mul_two_pi]
  rw [hper]
  have h4 : k % 4 = 0 ∨ k % 4 = 1 ∨ k % 4 = 2 ∨ k % 4 = 3 := by omega
  rcases h4 with h | h | h | h <;> simp only [h]
  · simp [rotor]
  · simp [rotor]
  · have : ((2 : ℤ) : ℝ) * (Real.pi / 2) = Real.pi := by push_cast; ring
    rw [this]; simp [rotor]
  · have : ((3 : ℤ) : ℝ) * (Real.pi / 2) = Real.pi / 2 + Real.pi := by push_cast; ring
    rw [this]; simp [rotor, Real.cos_add, Real.sin_add]

theorem Phasor.val_quarterTurns (k : ℤ) (t : Phasor) :
    (t.quarterTurns k).val = t.val * rotor ((k : ℝ) * (Real.pi / 2)) := by
  rw [rotor_quarters]
  unfold Phasor.quarterTurns
  split_ifs <;> simp only [Phasor.val, RealExpr.val_opposite] <;> apply Complex.ext <;>
    simp only [Complex.mul_re, Complex.mul_im] <;> ring

/-- Reducing a phase does not change the value. -/
theorem Phasor.val_reduce (t : Phasor) : t.reduce.val = t.val := by
  unfold Phasor.reduce
  rw [Phasor.val_quarterTurns]
  simp only [Phasor.val]
  rw [mul_assoc, ← rotor_add]
  congr 2
  simp only [Angle.val]; push_cast; ring

/-- Rotating multiplies the value by the rotor (00_scope R12). -/
theorem Cplx.val_rotate (z : Cplx) (theta : Angle) : (z.rotate theta).val = z.val * rotor theta.val := by
  unfold Cplx.rotate Cplx.val
  induction z with
  | nil => simp
  | cons t z ih =>
    simp only [List.map_cons, List.sum_cons, List.map_map] at ih ⊢
    rw [Phasor.val_reduce, Phasor.val_turn, ih]; ring

@[simp] theorem Cplx.val_ofNums (x y : RealExpr) : (Cplx.ofNums x y).val = ⟨x.val, y.val⟩ := by
  simp [Cplx.ofNums, Cplx.val, Phasor.val]

@[simp] theorem Cplx.val_ofRat (a b : Rat) : (Cplx.ofRat a b).val = ⟨(a : ℝ), (b : ℝ)⟩ := by
  simp [Cplx.ofRat, RealExpr.val]

/-! ### Coordinates -/

theorem Phasor.val_realNum (t : Phasor) : t.realNum.val = t.val.re := by
  simp [Phasor.realNum, Phasor.val, rotor, RealExpr.val]; ring

theorem Phasor.val_imagPart (t : Phasor) : t.imagPart.val.re = t.val.im := by
  simp [Phasor.imagPart, Phasor.val, rotor]; ring

theorem Cplx.val_cons (t : Phasor) (z : Cplx) : Cplx.val (t :: z) = t.val + Cplx.val z := by simp [Cplx.val]

theorem Cplx.val_sumReal (z : Cplx) : (Cplx.sumReal z).val = z.val.re := by
  induction z with
  | nil => simp [Cplx.sumReal, Cplx.val, RealExpr.val]
  | cons t z ih => rw [Cplx.val_cons, Complex.add_re, ← ih, ← Phasor.val_realNum]; rfl

/-- The in-phase coordinate of a complex value is its real part. -/
@[simp] theorem Cplx.val_reCoord (z : Cplx) : z.reCoord.val = z.val.re := Cplx.val_sumReal z

/-- The quadrature coordinate of a complex value is its imaginary part. -/
@[simp] theorem Cplx.val_imCoord (z : Cplx) : z.imCoord.val = z.val.im := by
  have e : (Cplx.val (z.map Phasor.imagPart)).re = z.val.im := by
    induction z with
    | nil => simp [Cplx.val]
    | cons t z ih => rw [List.map_cons, Cplx.val_cons, Cplx.val_cons, Complex.add_re, Complex.add_im, ih, Phasor.val_imagPart]
  exact (Cplx.val_sumReal _).trans e

end Sys2Proof
end

