-- ==== Sys2Proof/Laws/Encoding.lean ====
section
/-!
SUPPORT. The fields of an encoded header, and bursts read back.
-/

namespace Sys2Proof

/-- A bit of a header: of its low field, or above it of its opcode (30_encoding R61). -/
theorem header_getLsbD (op : BitVec 4) (w : BitVec 12) (i : Nat) :
    (op ++ w : Header).getLsbD i = if i < 12 then w.getLsbD i else op.getLsbD (i - 12) := by
  have := BitVec.getLsbD_append (x := op) (y := w) (i := i)
  simpa [Bool.cond_eq_ite] using this

theorem header_op (op : BitVec 4) (w : BitVec 12) : Header.op (op ++ w) = op := by
  unfold Header.op
  apply BitVec.eq_of_getLsbD_eq
  intro i hi
  rw [BitVec.getLsbD_extractLsb', header_getLsbD]
  simp [hi]

theorem header_low (op : BitVec 4) (w : BitVec 12) : Header.low (op ++ w) = w := by
  unfold Header.low
  apply BitVec.eq_of_getLsbD_eq
  intro i hi
  rw [BitVec.getLsbD_extractLsb', header_getLsbD]
  simp [hi]

/-- A header is its two fields (30_encoding R61). -/
theorem header_eq_fields (h : Header) : h = (Header.op h ++ Header.low h : Header) := by
  apply BitVec.eq_of_getLsbD_eq
  intro i hi
  rw [header_getLsbD]
  unfold Header.op Header.low
  rw [BitVec.getLsbD_extractLsb', BitVec.getLsbD_extractLsb']
  split_ifs with h12
  · simp [h12]
  · have h4 : i - 12 < 4 := by omega
    have : 12 + (i - 12) = i := by omega
    simp [h4, this]

@[simp] theorem headerCW_op (op : BitVec 4) (width : Int) : Header.op (headerCW op width) = op := header_op _ _

@[simp] theorem headerCW_low (op : BitVec 4) (width : Int) :
    Header.low (headerCW op width) = BitVec.ofInt 12 width := header_low _ _

@[simp] theorem headerC0_op (op : BitVec 4) : Header.op (headerC0 op) = op := header_op _ _

@[simp] theorem headerC0_low (op : BitVec 4) : Header.low (headerC0 op) = 0 := header_low _ _

theorem widthFits_iff (width : Int) : widthFits width = true ↔ -2048 ≤ width ∧ width ≤ 2047 := by
  unfold widthFits
  rw [Bool.and_eq_true]
  exact and_congr decide_eq_true_iff decide_eq_true_iff

/-- A width in the field's range is read back (30_encoding R64). -/
theorem headerCW_width {width : Int} (h : widthFits width = true) (op : BitVec 4) :
    Header.width (headerCW op width) = width := by
  rw [widthFits_iff] at h
  unfold Header.width
  rw [headerCW_low, BitVec.toInt_ofInt, Int.bmod_def]
  omega

/-- The width of any header fits the field (30_encoding R64). -/
theorem Header.width_fits (h : Header) : widthFits h.width = true := by
  have h1 := BitVec.toInt_lt (x := Header.low h)
  have h2 := BitVec.le_toInt (Header.low h)
  rw [widthFits_iff]
  unfold Header.width
  norm_num at h1 h2
  constructor <;> omega

theorem Beat.ints_map (vs : List Nat) : Beat.ints (vs.map .int) = some vs := by
  induction vs with
  | nil => rfl
  | cons v vs ih => simp [Beat.ints, ih]

theorem Beat.cplxs_map (ps : List Cplx) : Beat.cplxs (ps.map .cplx) = some ps := by
  induction ps with
  | nil => rfl
  | cons p ps ih => simp [Beat.cplxs, ih]

@[simp] theorem Beat.intBurst_ofInts (vs : List Nat) : Beat.intBurst (Beat.ofInts vs) = some vs := by
  simp [Beat.intBurst, Beat.ofInts, Beat.ints_map]

@[simp] theorem Beat.cplxBurst_ofCplxs (ps : List Cplx) : Beat.cplxBurst (Beat.ofCplxs ps) = some ps := by
  simp [Beat.cplxBurst, Beat.ofCplxs, Beat.cplxs_map]

theorem Beat.ints_eq_some {bs : List Beat} {vs : List Nat} (h : Beat.ints bs = some vs) : bs = vs.map .int := by
  induction bs generalizing vs with
  | nil => simp only [Beat.ints, Option.some.injEq] at h; subst h; rfl
  | cons b bs ih =>
    cases b <;> simp only [Beat.ints, Option.map_eq_some_iff, reduceCtorEq] at h
    obtain ⟨us, hu, rfl⟩ := h
    rw [ih hu, List.map_cons]

theorem Beat.cplxs_eq_some {bs : List Beat} {ps : List Cplx} (h : Beat.cplxs bs = some ps) : bs = ps.map .cplx := by
  induction bs generalizing ps with
  | nil => simp only [Beat.cplxs, Option.some.injEq] at h; subst h; rfl
  | cons b bs ih =>
    cases b <;> simp only [Beat.cplxs, Option.map_eq_some_iff, reduceCtorEq] at h
    obtain ⟨us, hu, rfl⟩ := h
    rw [ih hu, List.map_cons]

/-- A burst that is read is the burst's own beats: its count tells its length (30_encoding R62). -/
theorem Beat.intBurst_eq_some {bs : List Beat} {vs : List Nat} (h : Beat.intBurst bs = some vs) :
    bs = Beat.ofInts vs := by
  unfold Beat.intBurst at h
  split at h
  · rename_i n rest
    split_ifs at h with hl
    have := Beat.ints_eq_some h
    subst this
    simp only [List.length_map] at hl
    rw [Beat.ofInts, hl]
  · simp at h

theorem Beat.cplxBurst_eq_some {bs : List Beat} {ps : List Cplx} (h : Beat.cplxBurst bs = some ps) :
    bs = Beat.ofCplxs ps := by
  unfold Beat.cplxBurst at h
  split at h
  · rename_i n rest
    split_ifs at h with hl
    have := Beat.cplxs_eq_some h
    subst this
    simp only [List.length_map] at hl
    rw [Beat.ofCplxs, hl]
  · simp at h

end Sys2Proof
end

