-- ==== Sys2Proof/Laws/Quantizer.lean ====
section
/-!
SUPPORT. The quantizer against the reference numerics, the table's components under it, and the cancellation of a
rotation by its opposite.
-/

namespace Sys2Proof

/-! ### The quantizer's axis -/

/-- The index test of a rounding is that of the integer it answers at the draw (41_constellation R107, R111). -/
theorem indexAt_eq (c : Config) (r : Rounding) (k : Nat) : indexAt c r k = gridIndex c (r.atDraw k) := by
  cases r with
  | nearest n => rfl
  | tie n =>
    simp only [indexAt, Rounding.atDraw]
    cases h1 : gridIndex c n <;> cases h2 : gridIndex c (n + 1) <;> cases Config.tieUp k <;> simp [h1, h2]

/-- The axis in one piece: the range test, then the index test of the rounded coordinate (41_constellation R107). -/
theorem quantAxis_eq (c : Config) (v : RealExpr) (k : Nat) : quantAxis c v k =
    if v.inUnit then
      if 0 ≤ (gridRounding c v).atDraw k ∧ (gridRounding c v).atDraw k < (c.dim : Int) then
        some ((gridRounding c v).atDraw k).toNat
      else none
    else none := by
  rw [quantAxis, indexAt_eq, gridIndex]

theorem Scale.val_pos (r : Scale) : 0 < r.val := r.pos

/-- The scaled number (41_constellation R107). -/
theorem gridNum_val (c : Config) (v : RealExpr) : (gridNum c v).val = gridReal c v.val := by
  have hr : c.scale.num.val ≠ 0 := c.scale.pos.ne'
  unfold gridReal gridNum halfSpan Scale.val
  simp only [RealExpr.val]
  push_cast; field_simp

theorem gridHalfOrder_spec (c : Config) (v : RealExpr) (m : ℤ) :
    SignOf (gridHalfOrder c v m) ((gridNum c v).val - (m + 1 / 2)) := by
  unfold gridHalfOrder
  have hs := RealExpr.sign_spec (RealExpr.add (.mul v (.rat (halfSpan c))) (.mul c.scale.num (.rat (halfSpan c - m - 1 / 2))))
  have hr : 0 < c.scale.num.val := c.scale.pos
  have e : (RealExpr.add (.mul v (.rat (halfSpan c))) (.mul c.scale.num (.rat (halfSpan c - m - 1 / 2)))).val =
      c.scale.num.val * ((gridNum c v).val - (m + 1 / 2)) := by
    simp only [gridNum, RealExpr.val]
    push_cast; field_simp; ring
  rw [e] at hs
  generalize (RealExpr.add _ _).sign = o at hs ⊢
  cases o with
  | lt => exact neg_of_mul_neg_right hs hr.le
  | eq => exact (mul_eq_zero.1 hs).resolve_left hr.ne'
  | gt => exact (mul_pos_iff_of_pos_left hr).1 hs

/-- The rounding of the scaled number is that of the scaled real number (41_constellation R107, R111). -/
theorem gridRounding_spec (c : Config) (v : RealExpr) : (gridRounding c v).Holds (gridReal c v.val) := by
  rw [← gridNum_val]; exact RealExpr.roundingFrom_base (gridHalfOrder_spec c v)

/-- Where an axis answers, the reference numerics allow the answer (41_constellation R107). -/
theorem quantAxis_some {c : Config} {v : RealExpr} {k n : Nat}
    (hq : quantAxis c v k = some n) : AxisGives c v.val n := by
  have hr := Rounding.atDraw_roundsTo (gridRounding_spec c v) k
  rw [quantAxis_eq] at hq
  split_ifs at hq with hu hi
  simp only [Option.some.injEq] at hq
  have hn : (gridRounding c v).atDraw k = (n : ℤ) := by rw [← hq]; exact (Int.toNat_of_nonneg hi.1).symm
  rw [hn] at hr hi
  obtain ⟨h1, h2⟩ := (RealExpr.inUnit_spec v).1 hu
  exact ⟨h1, h2, hr, by exact_mod_cast hi.2⟩

/-- Where an axis faults, the reference numerics allow the fault (41_constellation R107). -/
theorem quantAxis_none {c : Config} {v : RealExpr} {k : Nat} (hq : quantAxis c v k = none) : AxisFaults c v.val := by
  rw [quantAxis_eq] at hq
  split_ifs at hq with hu hi
  · exact .inr ⟨_, Rounding.atDraw_roundsTo (gridRounding_spec c v) k, hi⟩
  · exact .inl (fun hx => hu ((RealExpr.inUnit_spec v).2 hx))

/-- Off a tie an axis answers the same at every draw (20_memory R47, 41_constellation R111). -/
theorem quantAxis_draws {c : Config} {v : RealExpr} (ht : ∀ n : ℤ, gridReal c v.val ≠ n + 1 / 2)
    (k k' : Nat) : quantAxis c v k = quantAxis c v k' := by
  have hr := gridRounding_spec c v
  rw [quantAxis_eq, quantAxis_eq]
  cases e : gridRounding c v with
  | nearest n => rfl
  | tie n => rw [e] at hr; exact absurd hr (ht n)

/-! ### The quantizer and the mapping -/

/-- All that the quantizer can answer: indices that the rule allows for the real sample, or a fault that it allows
(41_constellation R107). -/
theorem quantize_cases (c : Config) (p : Cplx) (k : Nat) :
    (∃ q i, quantize c p k = some (q, i) ∧ SampleGives c p.val q i) ∨
    (quantize c p k = none ∧ SampleFaults c p.val) := by
  unfold quantize
  cases hq : quantAxis c p.imCoord (k + 1) with
  | none => exact .inr ⟨rfl, .inl (by simpa using quantAxis_none hq)⟩
  | some q =>
    cases hi : quantAxis c p.reCoord k with
    | none => exact .inr ⟨rfl, .inr (by simpa using quantAxis_none hi)⟩
    | some i => exact .inl ⟨q, i, rfl, by simpa using quantAxis_some hq, by simpa using quantAxis_some hi⟩

/-- Off the ties the quantizer answers the same at every draw (20_memory R47). -/
theorem quantize_draws {c : Config} {p : Cplx} (h : OffTies c p.val) (k k' : Nat) : quantize c p k = quantize c p k' := by
  unfold quantize
  rw [quantAxis_draws (v := p.imCoord) (fun n => by rw [Cplx.val_imCoord]; exact (h n).2) (k + 1) (k' + 1),
    quantAxis_draws (v := p.reCoord) (fun n => by rw [Cplx.val_reCoord]; exact (h n).1) k k']

/-- The de-rotated sample over the complex numbers (42_iq_mod_dem R121). -/
theorem Cplx.val_derotate (p : Cplx) (rot : RealExpr) :
    (p.rotate (Angle.ofNum rot).neg).val = p.val * rotor (-rot.val) := by
  rw [Cplx.val_rotate, Angle.val_neg, Angle.val_ofNum]

/-- All that the mapping of a sample can answer (42_iq_mod_dem R121). -/
theorem demapSample_cases (c : Config) (rot : RealExpr) (p : Cplx) (k : Nat) :
    (∃ q i, demapSample c rot p k = some (i + q * c.dim) ∧ SampleGives c (p.val * rotor (-rot.val)) q i) ∨
    (demapSample c rot p k = none ∧ SampleFaults c (p.val * rotor (-rot.val))) := by
  unfold demapSample
  rw [← Cplx.val_derotate]
  rcases quantize_cases c (p.rotate (Angle.ofNum rot).neg) k with ⟨q, i, h, hs⟩ | ⟨h, hs⟩
  · exact .inl ⟨q, i, by rw [h]; rfl, hs⟩
  · exact .inr ⟨by rw [h]; rfl, hs⟩

/-- Off the ties the mapping of a sample answers the same at every draw (20_memory R47). -/
theorem demapSample_draws {c : Config} {rot : RealExpr} {p : Cplx} (h : OffTies c (p.val * rotor (-rot.val)))
    (k k' : Nat) : demapSample c rot p k = demapSample c rot p k' := by
  unfold demapSample
  rw [quantize_draws (by rwa [Cplx.val_derotate]) k k']

/-! ### The table's components -/

theorem Config.dim_sub_one_pos (c : Config) : (0 : ℝ) < (c.dim : ℝ) - 1 := by
  have : (2 : ℝ) ≤ c.dim := by exact_mod_cast c.two_le_dim
  linarith

theorem Config.peak_pos (c : Config) : 0 < peak c := by
  have : (2 : Rat) ≤ c.dim := by exact_mod_cast c.two_le_dim
  unfold peak; linarith

/-- `comp(k)` over the reals (41_constellation R112). -/
theorem comp_cast (c : Config) (k : Nat) : (comp c k : ℝ) = (2 * (k : ℝ) - c.dim + 1) / ((c.dim : ℝ) - 1) := by
  simp only [comp, rawComp, peak]; push_cast; ring

/-- The quantizer's coordinate of a table component is `m + (k - m)/R` (41_constellation R113). -/
theorem gridReal_comp (c : Config) (k : Nat) : gridReal c (comp c k) =
    ((c.dim : ℝ) - 1) / 2 + ((k : ℝ) - ((c.dim : ℝ) - 1) / 2) / c.scale.val := by
  have h1 := c.dim_sub_one_pos.ne'
  have h2 := c.scale.val_pos.ne'
  rw [comp_cast, gridReal]; field_simp; ring

theorem comp_inUnit {c : Config} {k : Nat} (hk : k < c.dim) : -1 ≤ (comp c k : ℝ) ∧ (comp c k : ℝ) ≤ 1 := by
  have h1 := c.dim_sub_one_pos
  have hk' : (k : ℝ) + 1 ≤ c.dim := by exact_mod_cast hk
  have h0 : (0 : ℝ) ≤ k := Nat.cast_nonneg k
  rw [comp_cast, le_div_iff₀ h1, div_le_iff₀ h1]
  constructor <;> linarith

/-- The rounding of a table component's scaled coordinate, where R113's condition holds. -/
theorem gridRounding_comp {c : Config} {k : Nat} (h : Inverts c k) {v : RealExpr} (hv : v.val = comp c k) :
    gridRounding c v = .nearest k := by
  refine Rounding.holds_unique (gridRounding_spec c v) ?_
  rw [hv]
  show |gridReal c (comp c k) - ((k : ℤ) : ℝ)| < 1 / 2
  rw [gridReal_comp]
  unfold Inverts at h
  convert h using 2
  push_cast; ring

/-- A table component quantizes to its own index at every draw, where R113's condition holds. -/
theorem quantAxis_comp {c : Config} {k : Nat} (hk : k < c.dim) (h : Inverts c k) {v : RealExpr}
    (hv : v.val = comp c k) (d : Nat) : quantAxis c v d = some k := by
  have hin : v.inUnit = true := (RealExpr.inUnit_spec v).2 (by rw [hv]; exact comp_inUnit hk)
  rw [quantAxis_eq]
  simp only [hin, if_true, gridRounding_comp h hv, Rounding.atDraw]
  have : (k : ℤ) < (c.dim : ℤ) := by exact_mod_cast hk
  simp [this]

/-- Every index inverts under `R = 1` (41_constellation R113 a). -/
theorem inverts_of_scale_one {c : Config} (h : c.scale.val = 1) (k : Nat) : Inverts c k := by
  simp [Inverts, h]

theorem Scale.val_rOne : Scale.rOne.val = 1 := by simp [Scale.val, Scale.rOne, RealExpr.val]

theorem Scale.val_rSrc : Scale.rSrc.val = Real.sqrt 2 / 2 := by
  simp [Scale.val, Scale.rSrc, RealExpr.val, div_eq_mul_inv]

/-- The two components of a table entry are those of its column and its row (41_constellation R112). -/
theorem modPoint_eq (c : Config) (s : Nat) : modPoint c s = (comp c (s % c.dim), comp c (s / c.dim)) := rfl

theorem modtab_eq (c : Config) (s : Nat) : modtab c s = Cplx.ofRat (comp c (s % c.dim)) (comp c (s / c.dim)) := rfl

/-- `MODTAB[s]` over the complex numbers (41_constellation R103). -/
theorem modtab_val (c : Config) (s : Nat) : (modtab c s).val = modtabVal c s := by
  rw [modtab_eq, Cplx.val_ofRat, comp_cast, comp_cast]; rfl

theorem mapSymbol_eq {c : Config} {rot : RealExpr} {s : Nat} (h : s < c.order) :
    mapSymbol c rot s = some ((modtab c s).rotate (Angle.ofNum rot)) := by simp [mapSymbol, h]

theorem mapSymbol_none {c : Config} {rot : RealExpr} {s : Nat} (h : c.order ≤ s) : mapSymbol c rot s = none := by
  simp [mapSymbol, not_lt.2 h]

/-! ### Rotation and its opposite -/

/-- A value rotated, and rotated back, is itself (42_iq_mod_dem R122: the rotation cancels exactly). -/
theorem Cplx.val_rotate_derotate (p : Cplx) (rot : RealExpr) :
    ((p.rotate (Angle.ofNum rot)).rotate (Angle.ofNum rot).neg).val = p.val := by
  rw [Cplx.val_derotate, Cplx.val_rotate, Angle.val_ofNum, mul_assoc, rotor_mul_neg, mul_one]

/-- A symbol's point demaps to the symbol, at every rotation and every draw, where R113's condition holds for both of
its indices. -/
theorem demapSample_mapped {c : Config} {rot : RealExpr} {s : Nat} (hs : s < c.order) (hcol : Inverts c (s % c.dim))
    (hrow : Inverts c (s / c.dim)) (d : Nat) :
    demapSample c rot ((modtab c s).rotate (Angle.ofNum rot)) d = some s := by
  have hd : 0 < c.dim := lt_of_lt_of_le (by norm_num) c.two_le_dim
  have h1 : s % c.dim < c.dim := Nat.mod_lt _ hd
  have h2 : s / c.dim < c.dim := Nat.div_lt_of_lt_mul hs
  unfold demapSample quantize
  set z := ((modtab c s).rotate (Angle.ofNum rot)).rotate (Angle.ofNum rot).neg with hz
  have hv : z.val = ⟨(comp c (s % c.dim) : ℝ), (comp c (s / c.dim) : ℝ)⟩ := by
    rw [hz, Cplx.val_rotate_derotate, modtab_eq, Cplx.val_ofRat]
  have hre := z.val_reCoord
  have him := z.val_imCoord
  rw [hv] at hre him
  rw [quantAxis_comp h2 hrow him, quantAxis_comp h1 hcol hre]
  simp only [Option.bind_some, Option.map_some, demgrid, Option.some.injEq]
  rw [Nat.mul_comm]; exact Nat.mod_add_div s c.dim

end Sys2Proof
end

