-- ==== Sys2Proof/Laws/Pipeline.lean ====
section
/-!
SUPPORT. What the loops of the pipeline commands do, once for each, and the chunks they read.
-/

namespace Sys2Proof.Machine

/-- Chunks that are all symbols are mapped one by one (43_modulate_demodulate R130). -/
theorem mapChunks_ok {c : Config} {rot : RealExpr} : ∀ (k : Nat) {l : List Nat}, (∀ s ∈ l, s < c.order) →
    mapChunks c rot k l = .ok (l.map fun s => (modtab c s).rotate (Angle.ofNum rot))
  | _, [], _ => rfl
  | k, s :: l, h => by
    rw [mapChunks, mapSymbol_eq (h s (by simp)), mapChunks_ok (k + 1) (fun x hx => h x (by simp [hx]))]
    rfl

/-- The first chunk that is no symbol ends the command, with its index (43_modulate_demodulate R130). -/
theorem mapChunks_error {c : Config} {rot : RealExpr} : ∀ (k : Nat) {pre : List Nat} {s : Nat} {post : List Nat},
    (∀ x ∈ pre, x < c.order) → c.order ≤ s → mapChunks c rot k (pre ++ s :: post) = .error (k + pre.length)
  | k, [], s, post, _, h => by simp [mapChunks, mapSymbol_none h]
  | k, x :: pre, s, post, hp, h => by
    rw [List.cons_append, mapChunks, mapSymbol_eq (hp x (by simp)),
      mapChunks_error (k + 1) (fun y hy => hp y (by simp [hy])) h]
    simp only [List.length_cons]
    show Except.error (k + 1 + pre.length) = _
    congr 1; omega

/-- Either every chunk is a symbol, or there is a first that is not. -/
theorem chunks_cases (c : Config) : ∀ l : List Nat, (∀ s ∈ l, s < c.order) ∨
    ∃ pre s post, l = pre ++ s :: post ∧ (∀ x ∈ pre, x < c.order) ∧ c.order ≤ s
  | [] => .inl (by simp)
  | s :: l => by
    by_cases h : s < c.order
    · rcases chunks_cases c l with h1 | ⟨pre, t, post, rfl, h2, h3⟩
      · exact .inl (by simpa [h] using h1)
      · exact .inr ⟨s :: pre, t, post, rfl, by simpa [h] using h2, h3⟩
    · exact .inr ⟨[], s, l, rfl, by simp, not_lt.1 h⟩

/-- The samples' symbols, when every sample demaps (43_modulate_demodulate R131). -/
theorem demapSamples_ok {c : Config} {rot : RealExpr} {d : Nat} : ∀ (k : Nat) {l : List Cplx} {syms : List Nat},
    demapSamples c rot d k l = .ok syms → syms.length = l.length ∧
      ∀ i (hi : i < l.length), ∃ s, syms[i]? = some s ∧ demapSample c rot l[i] (d + quantDraws * (k + i)) = some s
  | k, [], syms, h => by
    simp only [demapSamples, Except.ok.injEq] at h
    subst h; simp
  | k, p :: l, syms, h => by
    rw [demapSamples] at h
    cases hp : demapSample c rot p (d + quantDraws * k) with
    | none => simp [hp] at h
    | some s =>
      simp only [hp] at h
      cases hr : demapSamples c rot d (k + 1) l with
      | error j => simp [hr, Except.map] at h
      | ok rest =>
        simp only [hr, Except.map, Except.ok.injEq] at h
        subst h
        obtain ⟨h1, h2⟩ := demapSamples_ok (k + 1) hr
        refine ⟨by simp [h1], ?_⟩
        intro i hi
        cases i with
        | zero => exact ⟨s, by simp, by simpa using hp⟩
        | succ i =>
          obtain ⟨t, ht, ht'⟩ := h2 i (by simpa using hi)
          refine ⟨t, by simpa using ht, ?_⟩
          have : k + 1 + i = k + (i + 1) := by omega
          simpa [this] using ht'

/-- The first sample that demaps to no symbol ends the command, with its index (43_modulate_demodulate R131). -/
theorem demapSamples_error {c : Config} {rot : RealExpr} {d : Nat} : ∀ (k : Nat) {l : List Cplx} {j : Nat},
    demapSamples c rot d k l = .error j → ∃ i, j = k + i ∧ ∃ hi : i < l.length,
      demapSample c rot l[i] (d + quantDraws * (k + i)) = none ∧
      ∀ i' (hi' : i' < i), ∃ s, demapSample c rot l[i'] (d + quantDraws * (k + i')) = some s
  | k, [], j, h => by simp [demapSamples] at h
  | k, p :: l, j, h => by
    rw [demapSamples] at h
    cases hp : demapSample c rot p (d + quantDraws * k) with
    | none =>
      simp only [hp, Except.error.injEq] at h
      exact ⟨0, by omega, by simp, by simpa using hp, by omega⟩
    | some s =>
      simp only [hp] at h
      cases hr : demapSamples c rot d (k + 1) l with
      | ok rest => simp [hr, Except.map] at h
      | error j' =>
        simp only [hr, Except.map, Except.error.injEq] at h
        subst h
        obtain ⟨i, hi, hl, hn, hs⟩ := demapSamples_error (k + 1) hr
        have e : ∀ m, k + 1 + m = k + (m + 1) := by intro m; omega
        refine ⟨i + 1, by omega, by simpa using hl, by simpa [e] using hn, ?_⟩
        intro i' hi'
        cases i' with
        | zero => exact ⟨s, by simpa using hp⟩
        | succ i' =>
          obtain ⟨t, ht⟩ := hs i' (by omega)
          exact ⟨t, by simpa [e] using ht⟩

/-- Samples that are the points of symbols whose indices invert demap to those symbols, at every draw. -/
theorem demapSamples_mapped {c : Config} {rot : RealExpr} (d : Nat) : ∀ (k : Nat) {l : List Nat},
    (∀ s ∈ l, s < c.order ∧ Inverts c (s % c.dim) ∧ Inverts c (s / c.dim)) →
    demapSamples c rot d k (l.map fun s => (modtab c s).rotate (Angle.ofNum rot)) = .ok l
  | _, [], _ => rfl
  | k, s :: l, h => by
    obtain ⟨h1, h2, h3⟩ := h s (by simp)
    rw [List.map_cons, demapSamples, demapSample_mapped h1 h2 h3,
      demapSamples_mapped d (k + 1) (fun x hx => h x (by simp [hx]))]
    rfl

theorem Config.dim_pos (c : Config) : 0 < c.dim := lt_of_lt_of_le (by norm_num) c.two_le_dim

/-- How many chunks a data burst has (43_modulate_demodulate R132). -/
theorem chunksOf_length (c : Config) (data : List Nat) : (chunksOf c data).length = 8 * data.length / c.dim := by
  simp [chunksOf, Config.dataBits, Config.symbolBits, Nat.mul_comm]

/-- How many bytes a symbol burst has (43_modulate_demodulate R132). -/
theorem bytesOf_length (c : Config) (syms : List Nat) : (bytesOf c syms).length = syms.length * c.dim / 8 := by
  simp [bytesOf, Config.dataBits, Config.symbolBits]

/-- The window of a stream that words make is the chunk of those words (20_memory R42). -/
theorem windowVal_lsbitsAll (vs : List Nat) (w1 w2 k : Nat) (h : (k + 1) * w2 ≤ vs.length * w1) :
    windowVal (lsbitsAll vs w1) (k * w2) w2 = chunkVal vs w1 w2 k := by
  unfold windowVal chunkVal
  congr 1
  apply List.map_congr_left
  intro i hi
  have hi' : i < w2 := List.mem_range.1 hi
  rw [lsbitsAll_getElem? vs w1 _ (by rw [Nat.succ_mul] at h; omega)]
  simp

/-- Chunk `k` of a data burst. -/
theorem chunksOf_getElem? (c : Config) (data : List Nat) (k : Nat) (h : k < 8 * data.length / c.dim) :
    (chunksOf c data)[k]? = some (chunkVal data 8 c.dim k) := by
  have hd := Config.dim_pos c
  have h' : (k + 1) * c.dim ≤ data.length * 8 := by
    have := (Nat.le_div_iff_mul_le hd).1 (Nat.succ_le_of_lt h)
    rw [Nat.succ_eq_add_one] at this; omega
  unfold chunksOf
  rw [groups_getElem? _ _ _ (by simpa [Config.dataBits, Config.symbolBits, Nat.mul_comm] using h)]
  exact congrArg some (windowVal_lsbitsAll data 8 c.dim k h')

/-- Byte `k` of a symbol burst. -/
theorem bytesOf_getElem? (c : Config) (syms : List Nat) (k : Nat) (h : k < syms.length * c.dim / 8) :
    (bytesOf c syms)[k]? = some (chunkVal syms c.dim 8 k) := by
  have h' : (k + 1) * 8 ≤ syms.length * c.dim := by omega
  unfold bytesOf
  rw [groups_getElem? _ _ _ (by simpa [Config.dataBits, Config.symbolBits] using h)]
  exact congrArg some (windowVal_lsbitsAll syms c.dim 8 k h')

/-- Cutting bytes into whole chunks and the chunks into bytes gives the bytes (40_bitstream R84, R85). -/
theorem bytesOf_chunksOf (c : Config) (data : List Nat) (hd : ∀ v ∈ data, v < 256)
    (hl : 8 * data.length % c.dim = 0) : bytesOf c (chunksOf c data) = data := by
  have hdim := Config.dim_pos c
  unfold bytesOf chunksOf Config.dataBits Config.symbolBits
  obtain ⟨n, hn⟩ := Nat.dvd_of_mod_eq_zero hl
  rw [lsbitsAll_groups c.dim hdim n _ (by rw [lsbitsAll_length, Nat.mul_comm, hn, Nat.mul_comm]),
    groups_lsbitsAll 8 (by norm_num)]
  conv_rhs => rw [← List.map_id data]
  apply List.map_congr_left
  intro v hv
  exact Nat.mod_eq_of_lt (hd v hv)

end Sys2Proof.Machine
end

