-- ==== Sys2Proof/Laws/State.lean ====
section
/-!
SUPPORT. One lemma per field of the state and per named update, so that no proof unfolds a record update.
-/

namespace Sys2Proof.Machine

@[simp] theorem State.fifoPush_fifo (s : State) (b : Bits) : (s.fifoPush b).fifo = s.fifo ++ b := rfl
@[simp] theorem State.fifoPush_rot (s : State) (b : Bits) : (s.fifoPush b).rot = s.rot := rfl
@[simp] theorem State.fifoPush_cfg (s : State) (b : Bits) : (s.fifoPush b).cfg = s.cfg := rfl
@[simp] theorem State.fifoPush_inbox (s : State) (b : Bits) : (s.fifoPush b).inbox = s.inbox := rfl
@[simp] theorem State.fifoPush_responses (s : State) (b : Bits) : (s.fifoPush b).responses = s.responses := rfl
@[simp] theorem State.fifoPush_draws (s : State) (b : Bits) : (s.fifoPush b).draws = s.draws := rfl

@[simp] theorem State.fifoDrop_fifo (s : State) (k : Nat) : (s.fifoDrop k).fifo = s.fifo.drop k := rfl
@[simp] theorem State.fifoDrop_rot (s : State) (k : Nat) : (s.fifoDrop k).rot = s.rot := rfl
@[simp] theorem State.fifoDrop_cfg (s : State) (k : Nat) : (s.fifoDrop k).cfg = s.cfg := rfl
@[simp] theorem State.fifoDrop_inbox (s : State) (k : Nat) : (s.fifoDrop k).inbox = s.inbox := rfl
@[simp] theorem State.fifoDrop_responses (s : State) (k : Nat) : (s.fifoDrop k).responses = s.responses := rfl
@[simp] theorem State.fifoDrop_draws (s : State) (k : Nat) : (s.fifoDrop k).draws = s.draws := rfl

@[simp] theorem State.setRot_fifo (s : State) (theta : RealExpr) : (s.setRot theta).fifo = s.fifo := rfl
@[simp] theorem State.setRot_rot (s : State) (theta : RealExpr) : (s.setRot theta).rot = theta := rfl
@[simp] theorem State.setRot_cfg (s : State) (theta : RealExpr) : (s.setRot theta).cfg = s.cfg := rfl
@[simp] theorem State.setRot_inbox (s : State) (theta : RealExpr) : (s.setRot theta).inbox = s.inbox := rfl
@[simp] theorem State.setRot_responses (s : State) (theta : RealExpr) : (s.setRot theta).responses = s.responses := rfl
@[simp] theorem State.setRot_draws (s : State) (theta : RealExpr) : (s.setRot theta).draws = s.draws := rfl

@[simp] theorem State.draw_fifo (s : State) (n : Nat) : (s.draw n).fifo = s.fifo := rfl
@[simp] theorem State.draw_rot (s : State) (n : Nat) : (s.draw n).rot = s.rot := rfl
@[simp] theorem State.draw_cfg (s : State) (n : Nat) : (s.draw n).cfg = s.cfg := rfl
@[simp] theorem State.draw_inbox (s : State) (n : Nat) : (s.draw n).inbox = s.inbox := rfl
@[simp] theorem State.draw_responses (s : State) (n : Nat) : (s.draw n).responses = s.responses := rfl
@[simp] theorem State.draw_draws (s : State) (n : Nat) : (s.draw n).draws = s.draws + n := rfl

@[simp] theorem State.respond_fifo (s : State) (r : Response) : (s.respond r).fifo = s.fifo := rfl
@[simp] theorem State.respond_rot (s : State) (r : Response) : (s.respond r).rot = s.rot := rfl
@[simp] theorem State.respond_cfg (s : State) (r : Response) : (s.respond r).cfg = s.cfg := rfl
@[simp] theorem State.respond_inbox (s : State) (r : Response) : (s.respond r).inbox = s.inbox := rfl
@[simp] theorem State.respond_responses (s : State) (r : Response) : (s.respond r).responses = s.responses ++ [r] := rfl
@[simp] theorem State.respond_draws (s : State) (r : Response) : (s.respond r).draws = s.draws := rfl

@[simp] theorem State.doReset_fifo (s : State) : s.doReset.fifo = [] := rfl
@[simp] theorem State.doReset_rot (s : State) : s.doReset.rot = .rat 0 := rfl
@[simp] theorem State.doReset_cfg (s : State) : s.doReset.cfg = s.cfg := rfl
@[simp] theorem State.doReset_inbox (s : State) : s.doReset.inbox = s.inbox := rfl
@[simp] theorem State.doReset_responses (s : State) : s.doReset.responses = s.responses := rfl
@[simp] theorem State.doReset_draws (s : State) : s.doReset.draws = s.draws := rfl

@[simp] theorem State.taking_fifo (s : State) (rest : List HostEvent) : (s.taking rest).fifo = s.fifo := rfl
@[simp] theorem State.taking_rot (s : State) (rest : List HostEvent) : (s.taking rest).rot = s.rot := rfl
@[simp] theorem State.taking_cfg (s : State) (rest : List HostEvent) : (s.taking rest).cfg = s.cfg := rfl
@[simp] theorem State.taking_inbox (s : State) (rest : List HostEvent) : (s.taking rest).inbox = rest := rfl
@[simp] theorem State.taking_responses (s : State) (rest : List HostEvent) : (s.taking rest).responses = s.responses := rfl
@[simp] theorem State.taking_draws (s : State) (rest : List HostEvent) : (s.taking rest).draws = s.draws := rfl

@[simp] theorem State.placing_fifo (s : State) (h : Header) : (s.placing h).fifo = s.fifo := rfl
@[simp] theorem State.placing_rot (s : State) (h : Header) : (s.placing h).rot = s.rot := rfl
@[simp] theorem State.placing_cfg (s : State) (h : Header) : (s.placing h).cfg = s.cfg := rfl
@[simp] theorem State.placing_inbox (s : State) (h : Header) : (s.placing h).inbox = .command h (zeroBeats h) :: s.inbox := rfl
@[simp] theorem State.placing_responses (s : State) (h : Header) : (s.placing h).responses = s.responses := rfl
@[simp] theorem State.placing_draws (s : State) (h : Header) : (s.placing h).draws = s.draws := rfl

@[simp] theorem State.answered_eq (s : State) (st : BitVec 4) (bs : List Beat) :
    s.answered st bs = s.respond ⟨st, bs⟩ := rfl

/-- Capacity, as the test of 40_bitstream R88 reads it. -/
theorem State.overflows_eq_false (s : State) (n : Nat) : s.overflows n = false ↔ s.hasRoom n := by
  unfold State.overflows State.hasRoom
  cases s.cfg.depth <;> simp

/-- An overflow is a lack of room (40_bitstream R88). -/
theorem State.overflows_eq_true (s : State) (n : Nat) : s.overflows n = true ↔ ¬ s.hasRoom n := by
  rw [← State.overflows_eq_false]; simp

end Sys2Proof.Machine
end

