-- ==== Sys2Proof/Laws/Meanings.lean ====
section
/-!
SUPPORT. What each meaning answers, by cases: cited instead of unfolding the meaning.
-/

namespace Sys2Proof.Machine

theorem raise_eq (c : Cause) (info : Nat) (s : State) :
    raise c info s = .next (s.answered (causeCode c) [.cnt info]) := rfl

theorem complete_eq (bs : List Beat) (s : State) : complete bs s = .next (s.answered 0 bs) := rfl

theorem execBsWrite_cases (value : Nat) (width : Int) (s : State) :
    (width < 0 ∧ execBsWrite value width s = raise .invalidWidth 0 s) ∨
    (0 ≤ width ∧ ¬ s.hasRoom width.toNat ∧ execBsWrite value width s = raise .fifoOverflow 0 s) ∨
    (0 ≤ width ∧ s.hasRoom width.toNat ∧
      execBsWrite value width s = complete [] (s.fifoPush (lsbits value width.toNat))) := by
  unfold execBsWrite
  split_ifs with h1 h2
  · exact .inl ⟨h1, rfl⟩
  · exact .inr (.inl ⟨not_lt.1 h1, (State.overflows_eq_true s _).1 h2, rfl⟩)
  · exact .inr (.inr ⟨not_lt.1 h1, (State.overflows_eq_false s _).1 (by simpa using h2), rfl⟩)

theorem execBsWriteAll_cases (values : List Nat) (width : Int) (s : State) :
    (width < 0 ∧ execBsWriteAll values width s = raise .invalidWidth 0 s) ∨
    (0 ≤ width ∧ ¬ s.hasRoom (values.length * width.toNat) ∧
      execBsWriteAll values width s = raise .fifoOverflow 0 s) ∨
    (0 ≤ width ∧ s.hasRoom (values.length * width.toNat) ∧
      execBsWriteAll values width s = complete [] (s.fifoPush (lsbitsAll values width.toNat))) := by
  unfold execBsWriteAll
  split_ifs with h1 h2
  · exact .inl ⟨h1, rfl⟩
  · exact .inr (.inl ⟨not_lt.1 h1, (State.overflows_eq_true s _).1 h2, rfl⟩)
  · exact .inr (.inr ⟨not_lt.1 h1, (State.overflows_eq_false s _).1 (by simpa using h2), rfl⟩)

theorem execBsRead_cases (width : Int) (s : State) :
    (width < 0 ∧ execBsRead width s = raise .invalidWidth 0 s) ∨
    (0 ≤ width ∧ s.fifo = [] ∧ execBsRead width s = completeNoData s) ∨
    (0 ≤ width ∧ s.fifo ≠ [] ∧ execBsRead width s =
      complete [.int (bitsVal (s.fifo.take (min width.toNat s.fifo.length)))]
        (s.fifoDrop (min width.toNat s.fifo.length))) := by
  unfold execBsRead
  split_ifs with h1 h2
  · exact .inl ⟨h1, rfl⟩
  · exact .inr (.inl ⟨not_lt.1 h1, List.length_eq_zero_iff.1 h2, rfl⟩)
  · exact .inr (.inr ⟨not_lt.1 h1, fun h => h2 (by simp [h]), rfl⟩)

theorem execBsReadAll_cases (width : Int) (s : State) :
    (width < 0 ∧ execBsReadAll width s = raise .invalidWidth 0 s) ∨
    (width = 0 ∧ execBsReadAll width s = raise .zeroWidth 0 s) ∨
    (0 < width ∧ execBsReadAll width s = complete (Beat.ofInts (groups width.toNat s.fifo))
      (s.fifoDrop (groupCount width.toNat s.fifo * width.toNat))) := by
  unfold execBsReadAll
  split_ifs with h1 h2
  · exact .inl ⟨h1, rfl⟩
  · exact .inr (.inl ⟨h2, rfl⟩)
  · exact .inr (.inr ⟨by omega, rfl⟩)

theorem execTabMod_cases (symbol : Nat) (s : State) :
    (s.cfg.order ≤ symbol ∧ execTabMod symbol s = raise .invalidSymbol 0 s) ∨
    (symbol < s.cfg.order ∧ execTabMod symbol s = complete [.cplx (modtab s.cfg symbol)] s) := by
  unfold execTabMod
  split_ifs with h
  · exact .inl ⟨h, rfl⟩
  · exact .inr ⟨not_le.1 h, rfl⟩

theorem execTabDem_cases (row col : Nat) (s : State) :
    ((s.cfg.dim ≤ row ∨ s.cfg.dim ≤ col) ∧ execTabDem row col s = raise .outOfRange 0 s) ∨
    (row < s.cfg.dim ∧ col < s.cfg.dim ∧ execTabDem row col s = complete [.int (demgrid s.cfg row col)] s) := by
  unfold execTabDem
  split_ifs with h
  · exact .inl ⟨h, rfl⟩
  · rw [not_or, not_le, not_le] at h
    exact .inr ⟨h.1, h.2, rfl⟩

theorem execIqMod_cases (symbol : Nat) (s : State) :
    (s.cfg.order ≤ symbol ∧ execIqMod symbol s = raise .invalidSymbol 0 s) ∨
    (symbol < s.cfg.order ∧ execIqMod symbol s = complete [.cplx ((modtab s.cfg symbol).rotate (Angle.ofNum s.rot))] s) := by
  unfold execIqMod
  rcases lt_or_ge symbol s.cfg.order with h | h
  · exact .inr ⟨h, by rw [mapSymbol_eq h]⟩
  · exact .inl ⟨h, by rw [mapSymbol_none h]⟩

theorem execModulate_cases (data : List Nat) (s : State) :
    ((∀ x ∈ chunksOf s.cfg data, x < s.cfg.order) ∧ execModulate data s =
      complete (Beat.ofCplxs ((chunksOf s.cfg data).map fun x => (modtab s.cfg x).rotate (Angle.ofNum s.rot))) s) ∨
    (∃ pre x post, chunksOf s.cfg data = pre ++ x :: post ∧ (∀ y ∈ pre, y < s.cfg.order) ∧ s.cfg.order ≤ x ∧
      execModulate data s = raise .invalidSymbol pre.length s) := by
  unfold execModulate
  rcases chunks_cases s.cfg (chunksOf s.cfg data) with h | ⟨pre, x, post, h, h1, h2⟩
  · exact .inl ⟨h, by rw [mapChunks_ok 0 h]; rfl⟩
  · refine .inr ⟨pre, x, post, h, h1, h2, ?_⟩
    rw [h, mapChunks_error 0 h1 h2]
    simp [answerModulate, raise]

/-- A write with room (40_bitstream R80). -/
theorem exec_bsWrite_room {v w : Nat} {s : State} (h : s.hasRoom w) :
    exec (.bsWrite v w) s = complete [] (s.fifoPush (lsbits v w)) := by
  rcases execBsWrite_cases v w s with ⟨h0, _⟩ | ⟨_, h3, _⟩ | ⟨_, _, h'⟩
  · omega
  · exact absurd h h3
  · exact h'

/-- A burst write with room (40_bitstream R81). -/
theorem exec_bsWriteAll_room {vs : List Nat} {w : Nat} {s : State} (h : s.hasRoom (vs.length * w)) :
    exec (.bsWriteAll vs w) s = complete [] (s.fifoPush (lsbitsAll vs w)) := by
  rcases execBsWriteAll_cases vs w s with ⟨h0, _⟩ | ⟨_, h3, _⟩ | ⟨_, _, h'⟩
  · omega
  · exact absurd h h3
  · exact h'

/-- A read of a FIFO that holds bits (40_bitstream R82). -/
theorem exec_bsRead_some {w : Nat} {s : State} (h : s.fifo ≠ []) : exec (.bsRead w) s =
    complete [.int (bitsVal (s.fifo.take (min w s.fifo.length)))] (s.fifoDrop (min w s.fifo.length)) := by
  rcases execBsRead_cases w s with ⟨h0, _⟩ | ⟨_, h3, _⟩ | ⟨_, _, h'⟩
  · omega
  · exact absurd h3 h
  · exact h'

/-- A burst read (40_bitstream R83). -/
theorem exec_bsReadAll_pos {w : Nat} {s : State} (h : 0 < w) :
    exec (.bsReadAll w) s = complete (Beat.ofInts (groups w s.fifo)) (s.fifoDrop (groupCount w s.fifo * w)) := by
  rcases execBsReadAll_cases w s with ⟨h0, _⟩ | ⟨h0, _⟩ | ⟨_, h'⟩
  · omega
  · omega
  · exact h'

/-- A step that accepts a transaction the decoder reads is the execution of its command (10_state R21). -/
theorem step_command {s : State} {h : Header} {bs : List Beat} {rest : List HostEvent} {i : Instr}
    (hin : s.inbox = .command h bs :: rest) (hd : decode h bs = .ok i) : step s = exec i (s.taking rest) := by
  unfold step; rw [hin]; simp only [accept, hd]

theorem step_illegal {s : State} {h : Header} {bs : List Beat} {rest : List HostEvent}
    (hin : s.inbox = .command h bs :: rest) (hd : decode h bs = .error .illegalCommand) :
    step s = raise .illegalCommand 0 (s.taking (leaveBeats bs rest)) := by
  unfold step; rw [hin]; simp only [accept, hd]

theorem step_malformed {s : State} {h : Header} {bs : List Beat} {rest : List HostEvent}
    (hin : s.inbox = .command h bs :: rest) (hd : decode h bs = .error .malformed) :
    step s = .refused .malformedTransaction := by
  unfold step; rw [hin]; simp only [accept, hd]

theorem step_reset {s : State} {rest : List HostEvent} (hin : s.inbox = .reset :: rest) :
    step s = .next (s.taking rest).doReset := by
  unfold step; rw [hin]

theorem step_idle {s : State} (hin : s.inbox = []) : step s = .next s := by
  unfold step; rw [hin]

end Sys2Proof.Machine
end

