-- ==== Sys2Proof/Laws/PerInstr.lean ====
section
/-!
SUPPORT. Statements about every instruction as syntax, one lemma per constructor. The family EncodesItsRow: the
encoder's header lies in the instruction's row of spec/opcode_table.json (its `mask` and `match`).
-/

namespace Sys2Proof.Laws

/-- The `mask` of the instruction's row in spec/opcode_table.json. -/
def rowMask : Instr → BitVec 16
  | .bsWrite _ _ => 0xF000
  | .bsWriteAll _ _ => 0xF000
  | .bsRead _ => 0xF000
  | .bsReadAll _ => 0xF000
  | .rotSet _ => 0xFFFF
  | .rotGet => 0xFFFF
  | .tabMod _ => 0xFFFF
  | .tabDem _ _ => 0xFFFF
  | .quant _ => 0xFFFF
  | .iqMod _ => 0xFFFF
  | .iqDem _ => 0xFFFF
  | .modulate _ => 0xFFFF
  | .demodulate _ => 0xFFFF

/-- The `match` of the instruction's row in spec/opcode_table.json. -/
def rowMatch : Instr → BitVec 16
  | .bsWrite _ _ => 0x1000
  | .bsWriteAll _ _ => 0x2000
  | .bsRead _ => 0x3000
  | .bsReadAll _ => 0x4000
  | .rotSet _ => 0x5000
  | .rotGet => 0x6000
  | .tabMod _ => 0x7000
  | .tabDem _ _ => 0x8000
  | .quant _ => 0x9000
  | .iqMod _ => 0xA000
  | .iqDem _ => 0xB000
  | .modulate _ => 0xC000
  | .demodulate _ => 0xD000

/-- The bits of a CW header above the width are its opcode's (30_encoding R61). -/
theorem headerCW_masked (op : BitVec 4) (width : Int) : headerCW op width &&& 0xF000 = op ++ (0 : BitVec 12) := by
  unfold headerCW
  generalize BitVec.ofInt 12 width = w
  rw [show (0xF000 : BitVec 16) = (BitVec.allOnes 4) ++ (0 : BitVec 12) by decide]
  apply BitVec.eq_of_getLsbD_eq
  intro i hi
  simp only [BitVec.getLsbD_and, BitVec.getLsbD_append]
  by_cases h : i < 12
  · simp [h]
  · have h4 : i - 12 < 4 := by omega
    simp only [h, if_false, BitVec.getLsbD_allOnes, h4, decide_true, Bool.and_true]

/-- The encoder's header lies in the instruction's row of the opcode table. -/
def EncodesItsRow.Statement (i : Instr) : Prop := encodeHeader i &&& rowMask i = rowMatch i

theorem EncodesItsRow.bsWrite (value : Nat) (width : Int) : EncodesItsRow.Statement (.bsWrite value width) :=
  headerCW_masked 1 width
theorem EncodesItsRow.bsWriteAll (values : List Nat) (width : Int) :
    EncodesItsRow.Statement (.bsWriteAll values width) := headerCW_masked 2 width
theorem EncodesItsRow.bsRead (width : Int) : EncodesItsRow.Statement (.bsRead width) := headerCW_masked 3 width
theorem EncodesItsRow.bsReadAll (width : Int) : EncodesItsRow.Statement (.bsReadAll width) := headerCW_masked 4 width
theorem EncodesItsRow.rotSet (theta : RealExpr) : EncodesItsRow.Statement (.rotSet theta) := by
  show headerC0 5 &&& 0xFFFF = 0x5000
  decide
theorem EncodesItsRow.rotGet : EncodesItsRow.Statement .rotGet := by
  show headerC0 6 &&& 0xFFFF = 0x6000
  decide
theorem EncodesItsRow.tabMod (symbol : Nat) : EncodesItsRow.Statement (.tabMod symbol) := by
  show headerC0 7 &&& 0xFFFF = 0x7000
  decide
theorem EncodesItsRow.tabDem (row col : Nat) : EncodesItsRow.Statement (.tabDem row col) := by
  show headerC0 8 &&& 0xFFFF = 0x8000
  decide
theorem EncodesItsRow.quant (point : Cplx) : EncodesItsRow.Statement (.quant point) := by
  show headerC0 9 &&& 0xFFFF = 0x9000
  decide
theorem EncodesItsRow.iqMod (symbol : Nat) : EncodesItsRow.Statement (.iqMod symbol) := by
  show headerC0 10 &&& 0xFFFF = 0xA000
  decide
theorem EncodesItsRow.iqDem (point : Cplx) : EncodesItsRow.Statement (.iqDem point) := by
  show headerC0 11 &&& 0xFFFF = 0xB000
  decide
theorem EncodesItsRow.modulate (data : List Nat) : EncodesItsRow.Statement (.modulate data) := by
  show headerC0 12 &&& 0xFFFF = 0xC000
  decide
theorem EncodesItsRow.demodulate (samples : List Cplx) : EncodesItsRow.Statement (.demodulate samples) := by
  show headerC0 13 &&& 0xFFFF = 0xD000
  decide

end Sys2Proof.Laws
end

