-- ==== Sys2Proof/Tests/Slice0.lean ====
section
/-!
SUPPORT. Tests: ill-formed terms, words written out from the opcode map, vectors of spec/95_test_vectors (T and P
numbers), and a witness for every statement that has hypotheses.
-/

namespace Sys2Proof.Tests

open Sys2Proof.Machine

/-- An instance of grid size `dim` (2 and more), scale `r` and capacity `depth`. -/
def cfgOf (dim : Nat) (r : Scale) (depth : Option Nat) : Config :=
  if h : 2 ≤ dim then ⟨dim, h, r, depth⟩ else Config.default

/-- The reset state of an instance, with the given FIFO and rotation. -/
def stateOf (c : Config) (fifo : Bits) (rot : RealExpr) : State := { State.resetOf c with fifo := fifo, rot := rot }

/-- Order 4 under `R_SRC` right after reset. -/
def st4 : State := stateOf (cfgOf 2 Scale.rSrc none) [] (.rat 0)
/-- Order 9 under `R_SRC` right after reset. -/
def st9 : State := stateOf (cfgOf 3 Scale.rSrc none) [] (.rat 0)
/-- Order 9 under `R_ONE` right after reset. -/
def st9One : State := stateOf (cfgOf 3 Scale.rOne none) [] (.rat 0)
/-- Order 16 under `R_SRC` right after reset. -/
def st16 : State := stateOf (cfgOf 4 Scale.rSrc none) [] (.rat 0)
/-- Order 16 under `R_ONE` right after reset. -/
def st16One : State := stateOf (cfgOf 4 Scale.rOne none) [] (.rat 0)
/-- Order 36 under `R_SRC` right after reset. -/
def st36 : State := stateOf (cfgOf 6 Scale.rSrc none) [] (.rat 0)

/-- Bits written as digits. -/
def bitsOf (l : List Nat) : Bits := l.map fun n => n == 1

/-- The response of one command. -/
def answerOf (i : Instr) (s : State) : Option Response :=
  match exec i s with
  | .next t => t.responses.getLast?
  | _ => none

/-- The angle `q * pi`. -/
def turn (q : Rat) : RealExpr := .mul (.rat q) .pi

/-- The rotation register after one command. -/
def rotAfter (i : Instr) (s : State) : Option RealExpr :=
  match exec i s with
  | .next t => some t.rot
  | _ => none

/-- The FIFO after one command. -/
def fifoAfter (i : Instr) (s : State) : Option Bits :=
  match exec i s with
  | .next t => some t.fifo
  | _ => none

/-- The response of one step. -/
def stepAnswer (s : State) : Option Response :=
  match step s with
  | .next t => t.responses.getLast?
  | _ => none

/-! ### Well-formedness and decoding -/

/-- A width outside the 12-bit field is ill formed (30_encoding R64). -/
theorem test_illformed_bsWrite : (Instr.bsWrite 5 2048).wellFormed = false ∧ (Instr.bsWrite 5 (-2049)).wellFormed = false := by
  decide
theorem test_illformed_bsWriteAll :
    (Instr.bsWriteAll [5] 2048).wellFormed = false ∧ (Instr.bsWriteAll [] (-2049)).wellFormed = false := by decide
theorem test_illformed_bsRead : (Instr.bsRead 2048).wellFormed = false ∧ (Instr.bsRead (-2049)).wellFormed = false := by
  decide
theorem test_illformed_bsReadAll :
    (Instr.bsReadAll 2048).wellFormed = false ∧ (Instr.bsReadAll (-2049)).wellFormed = false := by decide

/-- FIFO family, 30_encoding R61, R64, R65: opcode in bits 15:12, width in bits 11:0 (T1, T5, T2, T4, T6). -/
theorem test_decode_fifo :
    decode 0b0001000000001000 [.int 5] = .ok (.bsWrite 5 8) ∧
    decode 0b0001100000000000 [.int 5] = .ok (.bsWrite 5 (-2048)) ∧
    decode 0b0010011111111111 [.cnt 2, .int 3, .int 4] = .ok (.bsWriteAll [3, 4] 2047) ∧
    decode 0b0011111111111111 [] = .ok (.bsRead (-1)) ∧
    decode 0b0100000000000000 [] = .ok (.bsReadAll 0) := ⟨rfl, rfl, rfl, rfl, rfl⟩

/-- Rotation, table and quantizer family (T9). -/
theorem test_decode_constellation (theta : RealExpr) (p : Cplx) :
    decode 0b0101000000000000 [.real theta] = .ok (.rotSet theta) ∧
    decode 0b0110000000000000 [] = .ok .rotGet ∧
    decode 0b0111000000000000 [.int 6] = .ok (.tabMod 6) ∧
    decode 0b1000000000000000 [.int 1, .int 2] = .ok (.tabDem 1 2) ∧
    decode 0b1001000000000000 [.cplx p] = .ok (.quant p) := ⟨rfl, rfl, rfl, rfl, rfl⟩

/-- Per-symbol and pipeline families (T9). -/
theorem test_decode_pipeline (p q : Cplx) :
    decode 0b1010000000000000 [.int 6] = .ok (.iqMod 6) ∧
    decode 0b1011000000000000 [.cplx p] = .ok (.iqDem p) ∧
    decode 0b1100000000000000 [.cnt 2, .int 1, .int 2] = .ok (.modulate [1, 2]) ∧
    decode 0b1101000000000000 [.cnt 2, .cplx p, .cplx q] = .ok (.demodulate [p, q]) := ⟨rfl, rfl, rfl, rfl⟩

/-- T7, T8: the headers that spell no command; and a burst whose count is wrong. -/
theorem test_decode_refuses :
    decode 0x0000 [] = .error .illegalCommand ∧ decode 0xE123 [] = .error .illegalCommand ∧
    decode 0xF000 [] = .error .illegalCommand ∧ decode 0x5001 [] = .error .illegalCommand ∧
    decode 0xC800 [] = .error .illegalCommand ∧ decode 0x6FFF [] = .error .illegalCommand ∧
    decode 0xC000 [.cnt 2, .int 1] = .error .malformed := by decide +kernel

/-- R66, R67, R150: an illegal header answers IllegalCommand also with beats, the operand beat of its opcode among them. -/
theorem test_illegal_with_beats :
    stepAnswer (State.reset.placing 0x0000) = some ⟨0xF, [.cnt 0]⟩ ∧
    stepAnswer { State.reset with inbox := [.command 0x5001 [.real (.rat 1)]] } = some ⟨0xF, [.cnt 0]⟩ ∧
    stepAnswer { State.reset with inbox := [.command 0xE123 [.int 1, .int 2]] } = some ⟨0xF, [.cnt 0]⟩ := by decide +kernel

/-- The step after reset runs the table row's instruction: T3, T6, T9, T7. -/
theorem test_first_step :
    stepAnswer (State.reset.withFetchWord 16 0x3000) = some ⟨1, []⟩ ∧
    stepAnswer (State.reset.withFetchWord 16 0x4000) = some ⟨0xB, [.cnt 0]⟩ ∧
    stepAnswer (State.reset.withFetchWord 16 0x6000) = some ⟨0, [.real (.rat 0)]⟩ ∧
    stepAnswer (State.reset.withFetchWord 16 0xC000) = some ⟨0, [.cnt 0]⟩ ∧
    stepAnswer (State.reset.withFetchWord 16 0xF000) = some ⟨0xF, [.cnt 0]⟩ := by decide +kernel

/-! ### One step of each command -/

/-- T14, T28: truncation; a full FIFO. -/
theorem test_bsWrite : fifoAfter (.bsWrite 0x1F5 4) st4 = some (bitsOf [1, 0, 1, 0]) ∧
    answerOf (.bsWrite 1 1) (stateOf (cfgOf 2 Scale.rSrc (some 8)) (bitsOf [1, 1, 1, 1, 1, 1, 1, 1]) (.rat 0)) =
      some ⟨0xC, [.cnt 0]⟩ := by decide +kernel
/-- T13, T29, T26. -/
theorem test_bsWriteAll : fifoAfter (.bsWriteAll [21, 9, 30] 5) st4 =
      some (bitsOf [1, 0, 1, 0, 1, 1, 0, 0, 1, 0, 0, 1, 1, 1, 1]) ∧
    fifoAfter (.bsWriteAll [1, 2, 3] 4) (stateOf (cfgOf 2 Scale.rSrc (some 8)) [] (.rat 0)) = some [] ∧
    answerOf (.bsWriteAll [] (-1)) st4 = some ⟨8, [.cnt 0]⟩ := by decide +kernel
/-- T24: a read leaves the rest, and a short read takes what remains. -/
theorem test_bsRead :
    answerOf (.bsRead 3) (stateOf Config.default (bitsOf [1, 0, 1, 1, 0, 1, 0]) (.rat 0)) = some ⟨0, [.int 5]⟩ ∧
    fifoAfter (.bsRead 3) (stateOf Config.default (bitsOf [1, 0, 1, 1, 0, 1, 0]) (.rat 0)) =
      some (bitsOf [1, 0, 1, 0]) ∧
    answerOf (.bsRead 8) (stateOf Config.default (bitsOf [1, 1, 1]) (.rat 0)) = some ⟨0, [.int 7]⟩ := by
  decide +kernel
/-- T12: whole groups, low bits first, and the residue. -/
theorem test_bsReadAll :
    answerOf (.bsReadAll 3) (stateOf Config.default (bitsOf [1, 0, 1, 0, 0, 1, 0, 1, 0, 0, 1, 1, 1, 1, 0, 0])
      (.rat 0)) = some ⟨0, [.cnt 5, .int 5, .int 4, .int 2, .int 6, .int 3]⟩ ∧
    fifoAfter (.bsReadAll 3) (stateOf Config.default (bitsOf [1, 0, 1, 0, 0, 1, 0, 1, 0, 0, 1, 1, 1, 1, 0, 0])
      (.rat 0)) = some [false] := by decide +kernel
/-- T36: no reduction of the angle. -/
theorem test_rotSet : rotAfter (.rotSet (.rat (15 / 2))) st4 = some (.rat (15 / 2)) := by decide +kernel
/-- Any real is legal (R108): the square root of 2. -/
theorem test_rotSet_root : ∃ t, exec (.rotSet (.root (.rat 2))) st4 = .next t ∧ t.rot.val = Real.sqrt 2 :=
  ⟨_, rfl, by simp [State.setRot, State.respond, RealExpr.val]⟩
theorem test_rotGet : answerOf .rotGet (stateOf Config.default [] (.rat (15 / 2))) = some ⟨0, [.real (.rat (15 / 2))]⟩ := by
  decide +kernel
/-- T31, T32. -/
theorem test_tabMod : answerOf (.tabMod 6) st16 = some ⟨0, [.cplx (Cplx.ofRat (1 / 3) (-1 / 3))]⟩ ∧
    answerOf (.tabMod 16) st16 = some ⟨9, [.cnt 0]⟩ := by decide +kernel
/-- T34. -/
theorem test_tabDem : answerOf (.tabDem 1 2) st16 = some ⟨0, [.int 6]⟩ ∧
    answerOf (.tabDem 4 0) st16 = some ⟨0xA, [.cnt 0]⟩ ∧ answerOf (.tabDem 0 4) st16 = some ⟨0xA, [.cnt 0]⟩ := by
  decide +kernel
/-- T37c, T37e, T37o under `R_SRC`: row first, and a wrong neighbour. T37g, T37h, T37k, T37i under both scales: the
tie of T37k leaves the status decided. -/
theorem test_quant : answerOf (.quant (Cplx.ofRat (-2 / 5) (3 / 5))) st9 = some ⟨0, [.int 2, .int 0]⟩ ∧
    answerOf (.quant (Cplx.ofRat (1 / 2) (-1 / 5))) st16 = some ⟨0, [.int 1, .int 3]⟩ ∧
    answerOf (.quant (Cplx.ofRat (-3 / 5) (3 / 5))) st36 = some ⟨0, [.int 5, .int 0]⟩ ∧
    answerOf (.quant (Cplx.ofRat (94 / 100) (-94 / 100))) st16 = some ⟨0, [.int 0, .int 3]⟩ ∧
    answerOf (.quant (Cplx.ofRat (95 / 100) (-1 / 5))) st16 = some ⟨0xA, [.cnt 0]⟩ ∧
    answerOf (.quant (Cplx.ofRat (11 / 10) 0)) st16 = some ⟨0xA, [.cnt 0]⟩ ∧
    answerOf (.quant (Cplx.ofRat 1 1)) st16One = some ⟨0, [.int 3, .int 3]⟩ := by decide +kernel
/-- R107, R144, R170 under `R_ONE`: `2*e^(j*pi/3) - j` is `(1, sqrt 3 - 1)`, on the bound of the range test, and its row
is the nearest integer to `sqrt 3 * 3/2 = 2.598`; `(sqrt 2 / 2, -1/sqrt 2)` scales to `(2.561, 0.439)`, `(pi/4, 0)` of
order 9 to `(1.785, 1)`. -/
theorem test_quant_reals :
    answerOf (.quant [⟨.rat 2, .rat 0, ⟨0, 1 / 3, []⟩⟩, ⟨.rat 0, .rat (-1), ⟨0, 0, []⟩⟩]) st16One =
      some ⟨0, [.int 3, .int 3]⟩ ∧
    answerOf (.quant (Cplx.ofNums (.mul (.root (.rat 2)) (.rat (1 / 2))) (.neg (.inv (.root (.rat 2)))))) st16One =
      some ⟨0, [.int 0, .int 3]⟩ ∧
    answerOf (.quant (Cplx.ofNums (turn (1 / 4)) (.rat 0))) st9One = some ⟨0, [.int 1, .int 2]⟩ := by decide +kernel
/-- T39b, T39e, T39g: rational components at quarter turns. -/
theorem test_iqMod : answerOf (.iqMod 0) (stateOf Config.default [] (turn (1 / 2))) = some ⟨0, [.cplx (Cplx.ofRat 1 (-1))]⟩ ∧
    answerOf (.iqMod 11) (stateOf (cfgOf 4 Scale.rSrc none) [] (turn 1)) =
      some ⟨0, [.cplx (Cplx.ofRat (-1) (-1 / 3))]⟩ ∧
    answerOf (.iqMod 4) st4 = some ⟨9, [.cnt 0]⟩ := by decide +kernel
/-- T40a, T40c, T40d (the sample `(0, sqrt 2)` is `(1, 1)` turned by pi/4), T40e. -/
theorem test_iqDem : answerOf (.iqDem (Cplx.ofRat 1 (-1))) (stateOf Config.default [] (turn (1 / 2))) = some ⟨0, [.int 0]⟩ ∧
    answerOf (.iqDem (Cplx.ofRat 1 1)) (stateOf Config.default [] (turn (1 / 4))) = some ⟨0xA, [.cnt 0]⟩ ∧
    answerOf (.iqDem [⟨.rat 1, .rat 1, ⟨0, 1 / 4, []⟩⟩]) (stateOf Config.default [] (turn (1 / 4))) = some ⟨0, [.int 3]⟩ ∧
    answerOf (.iqDem (Cplx.ofRat (1 / 5) (3 / 10))) (stateOf Config.default [] (turn 1)) = some ⟨0, [.int 0]⟩ := by
  decide +kernel
/-- T46: samples in decimals at the rotation pi/3, whose coordinates are known by bounds. R121, R131: order 9, `R = 1`,
the point `(1, 0)` sent as `e^(j*pi/3) + e^(-j*pi/3)`, and at the rotation `sqrt 2` sent as `e^(j*sqrt 2)`.
R176: at ROT 1 the point `(0, 0)`, a tie of order 4 on both axes; at ROT `e` and at ROT 1000 the point `(1/5, 3/10)`,
whose scaled coordinates are `(0.458, 0.248)` and `(0.755, 0.502)` to three digits (calculated outside Lean). -/
theorem test_iqDem_reals :
    answerOf (.iqDem (Cplx.ofRat (12201 / 100000) (-45534 / 100000)))
      (stateOf (cfgOf 4 Scale.rSrc none) [] (turn (1 / 3))) = some ⟨0, [.int 5]⟩ ∧
    answerOf (.iqDem [⟨.rat 1, .rat 0, ⟨0, 1 / 3, []⟩⟩, ⟨.rat 1, .rat 0, ⟨0, -1 / 3, []⟩⟩]) st9One =
      some ⟨0, [.int 5]⟩ ∧
    answerOf (.iqDem [⟨.rat 1, .rat 0, ⟨0, 0, [(1, .root (.rat 2))]⟩⟩])
      (stateOf (cfgOf 3 Scale.rOne none) [] (.root (.rat 2))) = some ⟨0, [.int 5]⟩ ∧
    (answerOf (.iqDem (Cplx.ofRat 0 0)) (stateOf Config.default [] (.rat 1))).map (·.status) = some 0 ∧
    answerOf (.iqDem (Cplx.ofRat (1 / 5) (3 / 10))) (stateOf Config.default [] (.exp (.rat 1))) = some ⟨0, [.int 0]⟩ ∧
    answerOf (.iqDem (Cplx.ofRat (1 / 5) (3 / 10))) (stateOf Config.default [] (.rat 1000)) = some ⟨0, [.int 3]⟩ := by
  decide +kernel
/-- T43, T48, T50b. -/
theorem test_modulate : answerOf (.modulate [1]) st4 = some ⟨0, [.cnt 4, .cplx (Cplx.ofRat 1 (-1)),
      .cplx (Cplx.ofRat (-1) (-1)), .cplx (Cplx.ofRat (-1) (-1)), .cplx (Cplx.ofRat (-1) (-1))]⟩ ∧
    answerOf (.modulate [0x1FF]) st4 = some ⟨0, [.cnt 4, .cplx (Cplx.ofRat 1 1), .cplx (Cplx.ofRat 1 1),
      .cplx (Cplx.ofRat 1 1), .cplx (Cplx.ofRat 1 1)]⟩ ∧
    answerOf (.modulate [0xFF]) (stateOf (cfgOf 5 Scale.rSrc none) [] (.rat 0)) = some ⟨9, [.cnt 0]⟩ := by
  decide +kernel
/-- T44, at the rotation pi/2. -/
theorem test_modulate_rotated : answerOf (.modulate [0x1B]) (stateOf Config.default [] (turn (1 / 2))) =
    some ⟨0, [.cnt 4, .cplx (Cplx.ofRat (-1) 1), .cplx (Cplx.ofRat (-1) (-1)), .cplx (Cplx.ofRat 1 1),
      .cplx (Cplx.ofRat 1 (-1))]⟩ := by decide +kernel
/-- T59 (the first sample that faults), T60, T61. -/
theorem test_demodulate :
    answerOf (.demodulate [Cplx.ofRat 1 1, Cplx.ofRat 1 (-1), Cplx.ofRat (6 / 5) 0, Cplx.ofRat 3 3]) st4 =
      some ⟨0xA, [.cnt 2]⟩ ∧
    answerOf (.demodulate [Cplx.ofRat 1 1, Cplx.ofRat (-1) (-1), Cplx.ofRat (1 / 3) 1]) st16One =
      some ⟨0, [.cnt 1, .int 0x0F]⟩ ∧
    answerOf (.demodulate (List.replicate 8 (Cplx.ofRat 1 1))) st9 = some ⟨0, [.cnt 3, .int 0, .int 0, .int 0]⟩ := by
  decide +kernel
/-- T52: a wrong byte under `R_SRC`. -/
theorem test_demodulate_wrong :
    answerOf (.demodulate [Cplx.ofRat (-1 / 5) (-1 / 5), Cplx.ofRat (-1 / 5) (-1 / 5), Cplx.ofRat (1 / 5) (1 / 5),
      Cplx.ofRat (-1 / 5) (-3 / 5)]) st36 = some ⟨0, [.cnt 3, .int 0x8E, .int 0x53, .int 0x09]⟩ := by decide +kernel

/-! ### Witnesses: the hypotheses of the statements are met -/

/-- A capacity of 8 bits, 5 of them held. -/
def stFull : State := stateOf (cfgOf 2 Scale.rSrc (some 8)) (bitsOf [1, 0, 1, 1, 0]) (.rat 0)

/-- The state with the given events before it. -/
def withInbox (s : State) (es : List HostEvent) : State := { s with inbox := es }

theorem witness_DecodeInvertsEncode : (Instr.bsWrite 5 (-2048)).wellFormed = true ∧
    (Instr.bsReadAll 2047).wellFormed = true ∧ (Instr.demodulate [Cplx.ofRat 1 1]).wellFormed = true := by decide

theorem witness_EncodeInvertsDecode : decode 0x2FFF [.cnt 0] = .ok (.bsWriteAll [] (-1)) := rfl

theorem witness_IllegalHeadersAnswerIllegalCommand :
    (withInbox st4 [.command 0xE123 []]).inbox = .command 0xE123 [] :: [] ∧ (Header.op 0xE123).toNat ∈ [0, 14, 15] ∧
    (Header.op 0x5001).toNat ∈ [5, 6, 7, 8, 9, 10, 11, 12, 13] ∧ Header.low 0x5001 ≠ 0 ∧
    (Header.op 0x1800).toNat = 1 ∧ (Header.op 0x2FFF).toNat = 2 ∧ (Header.op 0x3FFF).toNat ∈ [3, 4] ∧
    (Header.low 0x1800).toInt < 0 ∧ (Header.low 0x3FFF).toInt < 0 := by decide

/-- A reserved opcode, and a C0 header with a nonzero `z` that came with its own operand beat. -/
theorem witness_IllegalHeaderLeavesItsBeats :
    (withInbox st4 [.command 0x0000 [.int 1]]).inbox = .command 0x0000 (.int 1 :: []) :: [] ∧
    SpellsNone 0x0000 ∧ SpellsNone 0x5001 := by
  refine ⟨rfl, ?_, ?_⟩ <;> unfold SpellsNone <;> decide

/-- `MODULATE` with a burst that is too short is framed as no command. -/
theorem witness_DecoderErrorsAreTheHeadersFirst : decode 0xC000 [.cnt 2, .int 1] = .error .malformed ∧
    ¬ SpellsNone 0xC000 ∧ decode 0x5001 [.real (.rat 1)] = .error .illegalCommand := by
  refine ⟨rfl, ?_, rfl⟩; unfold SpellsNone; decide

theorem witness_StepRunsDecodedCommand : (withInbox st4 [.command 0x3008 []]).inbox = .command 0x3008 [] :: [] ∧
    decode 0x3008 [] = .ok (.bsRead 8) ∧ (Instr.bsRead 8).wellFormed = true := ⟨rfl, rfl, by decide⟩

theorem witness_ResetLeavesSpecValues : (withInbox stFull [.reset]).inbox = .reset :: [] ∧
    0 < Config.default.order ∧ 3 < Config.default.order ∧ 1 < Config.default.dim := by decide

theorem witness_NothingHappensWithoutAnEvent : State.reset.inbox = [] := rfl

theorem stFull_room : stFull.hasRoom 3 := by
  intro d hd
  have : d = 8 := by simpa [stFull, stateOf, State.resetOf, cfgOf] using hd.symm
  subst this; decide

theorem stFull_no_room : ¬ stFull.hasRoom 4 := by
  intro h
  have : stFull.fifo.length + 4 ≤ 8 := h 8 rfl
  revert this; decide

/-- Every clause of the write statements, at the boundary of the capacity. -/
theorem witness_BsWriteAppendsLowBits : ((-1 : Int) < 0) ∧ (0 : Int) ≤ 4 ∧ ¬ stFull.hasRoom (4 : Int).toNat ∧
    (0 : Int) ≤ 3 ∧ stFull.hasRoom (3 : Int).toNat ∧ (2 : Nat) < (3 : Int).toNat :=
  ⟨by decide, by decide, stFull_no_room, by decide, stFull_room, by decide⟩

theorem witness_BsWriteAllAppendsEachInOrder : ((-1 : Int) < 0) ∧
    ¬ stFull.hasRoom ([1, 2].length * (2 : Int).toNat) ∧ stFull.hasRoom ([1, 2, 3].length * (1 : Int).toNat) ∧
    (2 : Nat) < [1, 2, 3].length ∧ 0 < (1 : Int).toNat :=
  ⟨by decide, stFull_no_room, stFull_room, by decide, by decide⟩

/-- The clauses of the read statements: a negative width, width 0, an empty FIFO, a short read and a long one. -/
theorem witness_BsReadConsumesFromHead : ((-1 : Int) < 0) ∧ (0 : Int) ≤ 0 ∧ st4.fifo = [] ∧ stFull.fifo ≠ [] ∧
    (5 : Nat) = min (8 : Int).toNat stFull.fifo.length ∧ (0 : Nat) = min (0 : Int).toNat stFull.fifo.length := by decide

theorem witness_BsReadAllConsumesWholeGroups : ((-1 : Int) < 0) ∧ (0 : Int) < 2 ∧
    (2 : Nat) = stFull.fifo.length / (2 : Int).toNat ∧ (0 : Nat) = stFull.fifo.length / (6 : Int).toNat := by decide

theorem witness_ReadAllAfterWriteAllReturnsValues : 1 ≤ 1 ∧ (∀ v ∈ [1, 0, 1], v < 2 ^ 1) ∧
    stFull.hasRoom ([1, 0, 1].length * 1) ∧ 1 ∣ stFull.fifo.length := ⟨by decide, by decide, stFull_room, by decide⟩

theorem witness_ReadAllLeavesThePartialGroup : 1 ≤ 1 ∧ stFull.fifo.length % 3 = 2 := by decide

theorem witness_FifoGrowsAtTailShrinksAtHead : exec (.bsWrite 7 3) stFull =
      .next ((stFull.fifoPush (lsbits 7 3)).respond (okResponse [])) ∧
    ∃ t, exec (.bsReadAll 2) stFull = .next t := ⟨exec_bsWrite_room stFull_room, _, exec_bsReadAll_pos (by decide)⟩

theorem witness_FifoAsLengthAndValue : stFull.hasRoom 3 ∧ (∃ t, exec (.bsWrite 9 (3 : Nat)) stFull = .next t) ∧
    stFull.fifo ≠ [] ∧ 5 ≤ stFull.fifo.length ∧ ∃ t, exec (.bsRead (5 : Nat)) stFull = .next t :=
  ⟨stFull_room, ⟨_, exec_bsWrite_room stFull_room⟩, by decide, by decide, _, exec_bsRead_some (by decide)⟩

/-- T18 and T12: two words of 8 bits, the last of five reads of 3 bits. -/
theorem witness_MixedWidthReadsCutOneNumber : st4.fifo = [] ∧ (0 < 8 ∧ 0 < 3) ∧ (∀ v ∈ [0xA5, 0x3C], v < 2 ^ 8) ∧
    st4.hasRoom ([0xA5, 0x3C].length * 8) ∧ (∃ t, exec (.bsWriteAll [0xA5, 0x3C] (8 : Nat)) st4 = .next t) ∧
    (4 + 1) * 3 ≤ [0xA5, 0x3C].length * 8 :=
  ⟨rfl, by decide, by decide, (by intro d h; cases h), ⟨_, exec_bsWriteAll_room (by intro d h; cases h)⟩, by decide⟩

theorem witness_BurstsEqualSingleCommands : stFull.hasRoom ([1, 2, 3].length * 1) ∧ 0 < 1 := ⟨stFull_room, by decide⟩

theorem witness_RotGetReadsRot : (∀ i ∈ [Instr.rotGet, .quant (Cplx.ofRat 1 1)], ∀ x, i ≠ .rotSet x) ∧
    (∃ t, execAll [.rotSet (.rat 1), .rotGet, .quant (Cplx.ofRat 1 1)] st4 = .next t) ∧
    ∃ t, execAll [.rotGet, .quant (Cplx.ofRat 1 1)] (State.resetOf Config.default) = .next t := by
  refine ⟨?_, ⟨_, rfl⟩, ⟨_, rfl⟩⟩
  intro i hi x e
  simp only [List.mem_cons, List.not_mem_nil, or_false] at hi
  rcases hi with rfl | rfl <;> cases e

/-- A step by ROT.SET and a step by the reset event change ROT. -/
theorem witness_OnlyRotSetAndResetWriteRot :
    (∃ t, step (withInbox st4 [.command 0x5000 [.real (.rat 1)]]) = .next t ∧ t.rot ≠ st4.rot) ∧
    ∃ t, step (withInbox (stateOf Config.default [] (.rat 1)) [.reset]) = .next t ∧ t.rot ≠ .rat 1 :=
  ⟨⟨_, rfl, by decide⟩, ⟨_, rfl, by decide⟩⟩

theorem witness_TabModReadsTable : st16.cfg.order ≤ 16 ∧ 15 < st16.cfg.order := by decide

theorem witness_TabDemReadsGrid : (st16.cfg.dim ≤ 4 ∨ st16.cfg.dim ≤ 0) ∧ (st16.cfg.dim ≤ 0 ∨ st16.cfg.dim ≤ 4) ∧
    3 < st16.cfg.dim := by decide

theorem witness_GridInvertsTableLayout : 0 < st16.cfg.order ∧ 15 < st16.cfg.order ∧ 3 < st16.cfg.dim := by decide

theorem witness_TableIsNormalisedWithCorners : 8 < st9.cfg.order := by decide

/-- A sample with each outcome, in an exact case and in one known by bounds (T37c, T37l, T46). -/
theorem witness_QuantAgreesWithReals :
    answerOf (.quant (Cplx.ofRat (-2 / 5) (3 / 5))) st9 = some ⟨0, [.int 2, .int 0]⟩ ∧
    answerOf (.quant (Cplx.ofRat (-1) (10000001 / 10000000))) st4 = some ⟨0xA, [.cnt 0]⟩ := by decide +kernel

theorem st16One_scale : st16One.cfg.scale.val = 1 := Scale.val_rOne

theorem witness_QuantCompletesUnderScaleOne : st16One.cfg.scale.val = 1 ∧
    |(Cplx.ofRat 1 (-1)).val.re| ≤ 1 ∧ |(Cplx.ofRat 1 (-1)).val.im| ≤ 1 :=
  ⟨st16One_scale, by rw [Cplx.val_ofRat]; norm_num, by rw [Cplx.val_ofRat]; norm_num⟩

theorem witness_QuantizerInvertsTableExactlyWhen : 3 < st16One.cfg.dim ∧
    (RealExpr.rat (comp st16One.cfg 3)).val = comp st16One.cfg 3 ∧ st16One.cfg.scale.val = 1 ∧
    st9.cfg.scale.val = Real.sqrt 2 / 2 ∧ st9.cfg.dim ≤ 3 ∧ st16.cfg.scale.val = Real.sqrt 2 / 2 ∧ ¬ st16.cfg.dim ≤ 3 :=
  ⟨by decide, rfl, st16One_scale, Scale.val_rSrc, by decide, Scale.val_rSrc, by decide⟩

/-- The bounds of the range test, a coordinate just beyond, and `sqrt 3 * sqrt (1/3) = 1`. -/
theorem witness_RangeTestIsThatOfTheReals : (Cplx.ofRat 1 (-1)).reCoord.inUnit = true ∧
    (Cplx.ofRat 1 (-1)).imCoord.inUnit = true ∧ (Cplx.ofRat (1000001 / 1000000) 0).reCoord.inUnit = false ∧
    (RealExpr.mul (.root (.rat 3)) (.root (.rat (1 / 3)))).inUnit = true := by decide +kernel

/-- Both outcomes: a number nearer to 1, and an exact half; 0 scales to a half at every even grid size. -/
theorem witness_RoundingIsThatOfTheReals : (RealExpr.rat (7 / 10)).rounding = .nearest 1 ∧
    (RealExpr.rat (3 / 2)).rounding = .tie 1 ∧ gridRounding st16.cfg (.rat 0) = .tie 1 ∧
    (RealExpr.rat (3 / 2)).val = (1 : ℤ) + 1 / 2 :=
  ⟨by decide +kernel, by decide +kernel, by decide +kernel, by simp only [RealExpr.val]; push_cast; norm_num⟩

/-- Each sign is calculated for some number: `pi - 22/7`, `2*cos(pi/5) - (1 + sqrt 5)/2` and `e - 2.7`. -/
theorem witness_SignsAreThoseOfTheReals : (RealExpr.add .pi (.rat (-22 / 7))).sign = .lt ∧
    (RealExpr.add (.mul (.rat 2) (.cos (turn (1 / 5))))
      (.mul (.rat (-1 / 2)) (.add (.rat 1) (.root (.rat 5))))).sign = .eq ∧
    (RealExpr.add (.exp (.rat 1)) (.rat (-27 / 10))).sign = .gt := by decide +kernel

/-- `(1, 1)` is off the ties of order 9 under `R = 1`, as is `(1, 1)` de-rotated at ROT 0. -/
theorem witness_RepeatedCommandsAnswerTheSame : OffTies st9One.cfg (Cplx.ofRat 1 1).val ∧
    OffTies st9One.cfg ((Cplx.ofRat 1 1).val * rotor (-st9One.rot.val)) ∧
    ∃ t, execAll [.quant (Cplx.ofRat 1 1), .quant (Cplx.ofRat 1 1)] st9One = .next t := by
  have h1 : gridReal st9One.cfg 1 = 2 := by
    have hs : st9One.cfg.scale.val = 1 := Scale.val_rOne
    have hd : (st9One.cfg.dim : ℝ) = 3 := by norm_num [st9One, stateOf, State.resetOf, cfgOf]
    rw [gridReal, hs, hd]; norm_num
  have h2 : OffTies st9One.cfg (Cplx.ofRat 1 1).val := by
    intro n
    rw [Cplx.val_ofRat]
    simp only [Rat.cast_one, h1]
    have : (2 : ℝ) ≠ n + 1 / 2 := by
      intro h
      have h' : ((2 * n : ℤ) : ℝ) = ((3 : ℤ) : ℝ) := by push_cast; linarith
      have : 2 * n = 3 := by exact_mod_cast h'
      omega
    exact ⟨this, this⟩
  refine ⟨h2, ?_, _, rfl⟩
  have hr : st9One.rot.val = 0 := by simp [st9One, stateOf, RealExpr.val]
  rwa [hr, neg_zero, rotor_zero, mul_one]

theorem witness_IqModRotatesTablePoint : st4.cfg.order ≤ 4 ∧ 3 < st4.cfg.order := by decide

/-- T40e answers; T40c faults. -/
theorem witness_IqDemAgreesWithReals :
    answerOf (.iqDem (Cplx.ofRat (1 / 5) (3 / 10))) (stateOf Config.default [] (turn 1)) = some ⟨0, [.int 0]⟩ ∧
    answerOf (.iqDem (Cplx.ofRat 1 1)) (stateOf Config.default [] (turn (1 / 4))) = some ⟨0xA, [.cnt 0]⟩ := by
  decide +kernel

/-- The last symbol of order 16, at a rotation that is no multiple of pi/4. -/
theorem witness_IqDemUndoesIqMod :
    15 < (stateOf (cfgOf 4 Scale.rOne none) [] (.rat 1)).cfg.order ∧ Inverts st16One.cfg (15 % 4) ∧
    Inverts st16One.cfg (15 / 4) ∧ st16One.cfg = (stateOf (cfgOf 4 Scale.rOne none) [] (.rat 1)).cfg :=
  ⟨by decide, inverts_of_scale_one st16One_scale _, inverts_of_scale_one st16One_scale _, rfl⟩

/-- The data of T54 have eight chunks, each a symbol; of the data `[231, 255]` at order 25 the first chunk is a symbol
and the second is none. -/
theorem witness_ModulateMapsChunks :
    (∀ k, k < 8 * [0xD1, 0x5E, 0x07].length / st9.cfg.dim → chunkVal [0xD1, 0x5E, 0x07] 8 st9.cfg.dim k < st9.cfg.order) ∧
    1 < 8 * [231, 255].length / 5 ∧ 25 ≤ chunkVal [231, 255] 8 5 1 ∧ ∀ j, j < 1 → chunkVal [231, 255] 8 5 j < 25 := by decide

theorem witness_ModulateNeverFaultsUpToDimFour : st16.cfg.dim ≤ 4 := by decide

/-- T59 faults at its third sample; T60 completes. -/
theorem witness_DemodulateAgreesWithReals :
    answerOf (.demodulate [Cplx.ofRat 1 1, Cplx.ofRat 1 (-1), Cplx.ofRat (6 / 5) 0]) st4 = some ⟨0xA, [.cnt 2]⟩ ∧
    answerOf (.demodulate [Cplx.ofRat 1 1, Cplx.ofRat (-1) (-1)]) st16One = some ⟨0, [.cnt 1, .int 0x0F]⟩ := by
  decide +kernel

theorem witness_DemappingCompletesUnderScaleOne : st16One.cfg.scale.val = 1 ∧
    |((Cplx.ofRat 1 (-1)).val * rotor (-st16One.rot.val)).re| ≤ 1 ∧
    |((Cplx.ofRat 1 (-1)).val * rotor (-st16One.rot.val)).im| ≤ 1 := by
  have hr : st16One.rot.val = 0 := by simp [st16One, stateOf, RealExpr.val]
  refine ⟨st16One_scale, ?_, ?_⟩ <;>
    rw [hr, neg_zero, rotor_zero, mul_one, Cplx.val_ofRat] <;> norm_num

/-- T47 under `R_ONE`: a round trip with outer indices. -/
theorem witness_DemodulateUndoesModulate : (∀ v ∈ [0x1B], v < 256) ∧ 8 * [0x1B].length % st16One.cfg.dim = 0 ∧
    ∀ k, k < 8 * [0x1B].length / st16One.cfg.dim → chunkVal [0x1B] 8 st16One.cfg.dim k < st16One.cfg.order ∧
      Inverts st16One.cfg (chunkVal [0x1B] 8 st16One.cfg.dim k % st16One.cfg.dim) ∧
      Inverts st16One.cfg (chunkVal [0x1B] 8 st16One.cfg.dim k / st16One.cfg.dim) := by
  have h : ∀ k, k < 8 * [0x1B].length / st16One.cfg.dim → chunkVal [0x1B] 8 st16One.cfg.dim k < st16One.cfg.order := by
    decide
  exact ⟨by decide, by decide, fun k hk =>
    ⟨h k hk, inverts_of_scale_one st16One_scale _, inverts_of_scale_one st16One_scale _⟩⟩

/-- T47 under `R_ONE` and T54 under `R_SRC`. -/
theorem witness_RoundTripForEverySuitableData : (∀ v ∈ [0xD1, 0x5E, 0x07], v < 256) ∧
    8 * [0xD1, 0x5E, 0x07].length % st9.cfg.dim = 0 ∧
    (st9.cfg.scale.val = Real.sqrt 2 / 2 ∧ st9.cfg.dim ≤ 3) ∧
    8 * [0x1B].length % st16One.cfg.dim = 0 ∧ st16One.cfg.scale.val = 1 ∧ st16One.cfg.dim ≤ 4 :=
  ⟨by decide, by decide, ⟨Scale.val_rSrc, by decide⟩, by decide, st16One_scale, by decide⟩

theorem witness_ModulateSplitsAtWholeChunks : 8 * [0xD1, 0x5E, 0x07].length % st9.cfg.dim = 0 ∧
    (∃ ps : List Cplx, exec (.modulate [0xD1, 0x5E, 0x07]) st9 =
      .next (st9.answered 0x0 (.cnt ps.length :: ps.map .cplx))) ∧
    ∃ qs : List Cplx, exec (.modulate [0xFF]) st9 = .next (st9.answered 0x0 (.cnt qs.length :: qs.map .cplx)) := by
  refine ⟨by decide, ?_, ?_⟩
  · rcases execModulate_cases [0xD1, 0x5E, 0x07] st9 with ⟨_, h⟩ | ⟨pre, x, post, h, _, hx, _⟩
    · exact ⟨_, h⟩
    · have : x ∈ chunksOf st9.cfg [0xD1, 0x5E, 0x07] := by rw [h]; simp
      exact absurd hx (not_le.2 ((by decide : ∀ y ∈ chunksOf st9.cfg [0xD1, 0x5E, 0x07], y < st9.cfg.order) x this))
  · rcases execModulate_cases [0xFF] st9 with ⟨_, h⟩ | ⟨pre, x, post, h, _, hx, _⟩
    · exact ⟨_, h⟩
    · have : x ∈ chunksOf st9.cfg [0xFF] := by rw [h]; simp
      exact absurd hx (not_le.2 ((by decide : ∀ y ∈ chunksOf st9.cfg [0xFF], y < st9.cfg.order) x this))

theorem witness_StatusesComeFromTheirCommands : ∃ t, exec (.bsReadAll 0) st4 = .next t := ⟨_, rfl⟩

theorem witness_InvalidWidthExactlyForNegativeWidths : widthOf (.bsReadAll (-1)) = some (-1) ∧ (-1 : Int) < 0 ∧
    exec (.bsReadAll (-1)) st4 = .next (st4.answered 0x8 [.cnt 0]) ∧
    decode 0x3FFF [] = .ok (.bsRead (-1)) ∧ decode 0x37FF [] = .ok (.bsRead 2047) := ⟨rfl, by decide, rfl, rfl, rfl⟩

/-- T50b: a chunk of five ones is no symbol of order 25. -/
theorem witness_InvalidSymbolExactlyFromOrderUp : exec (.tabMod 4) st4 = .next (st4.answered 0x9 [.cnt 0]) ∧
    (cfgOf 5 Scale.rSrc none).order ≤ chunkVal [0xFF] 8 (cfgOf 5 Scale.rSrc none).dim 0 := ⟨rfl, by decide⟩

theorem witness_FifoOverflowExactlyWithoutRoom : stFull.cfg.depth = some 8 ∧ 8 < stFull.fifo.length + 4 ∧
    4 = [1, 2].length * 2 := by decide

theorem witness_NoDataExactlyForReadOfEmptyFifo : st4.fifo = [] ∧ stFull.fifo ≠ [] ∧ 0 < 1 := by decide

theorem witness_FaultsArePrecise : exec (.bsReadAll 0) stFull = .next (stFull.answered 0xB [.cnt 0]) ∧
    (stFull.answered 0xB [.cnt 0]).responses = stFull.responses ++ [⟨0xB, [.cnt 0]⟩] ∧ isFault 0xB = true ∧
    decode 0xF000 [.int 1] = .error .illegalCommand ∧
    ∃ t, step (withInbox stFull [.command 0xF000 [.int 1]]) = .next t := ⟨rfl, rfl, rfl, rfl, _, rfl⟩

theorem witness_FifoAndModulatorAreIndependent : isBsCommand (.iqDem (Cplx.ofRat 1 1)) = false ∧
    (∃ t, exec (.iqDem (Cplx.ofRat 1 1)) stFull = .next t) ∧ readsRot (.quant (Cplx.ofRat 1 1)) = false ∧
    (∀ x, Instr.quant (Cplx.ofRat 1 1) ≠ .rotSet x) ∧ ∃ t, exec (.quant (Cplx.ofRat 1 1)) stFull = .next t :=
  ⟨rfl, ⟨_, rfl⟩, rfl, (by intro x e; cases e), ⟨_, rfl⟩⟩

theorem witness_ParametersNeverChange : ∃ t, step (withInbox stFull [.reset]) = .next t := ⟨_, rfl⟩

/-- A write that fills the FIFO to its capacity. -/
theorem witness_StepKeepsFifoWithinDepth : stFull.withinDepth ∧
    ∃ t, step (withInbox stFull [.command 0x1003 [.int 7]]) = .next t := by
  refine ⟨?_, _, (step_command rfl (by rfl : decode 0x1003 [.int 7] = .ok (.bsWrite 7 3))).trans
    (exec_bsWrite_room (w := 3) ?_)⟩
  · intro d hd; have := stFull_room d hd; omega
  · exact stFull_room

/-- A command, an illegal header without beats and a reset are well framed. -/
theorem witness_SafeStatesStepToSafeStates :
    (withInbox stFull [.command 0x1003 [.int 7], .command 0xF000 [], .reset]).Safe := by
  refine ⟨?_, by decide⟩
  intro d hd; have := stFull_room d hd
  show stFull.fifo.length ≤ d
  omega

theorem witness_OnlyIllFramedTransactionsAreRefused :
    step (withInbox st4 [.command 0xC000 [.cnt 2, .int 1]]) = .refused .malformedTransaction ∧
    decode 0xC000 [.cnt 2, .int 1] = .error .malformed := ⟨rfl, rfl⟩

end Sys2Proof.Tests
end

section
/-!
The statements of 00_scope. The range test of a coordinate is moved to the real or imaginary part of the value; the
parameters stay because every command, and so every step, writes other fields only.
-/

namespace Sys2Proof

/-! ### The range test (00_scope R12, 41_constellation R107) -/

/-- The in-phase coordinate passes the range test exactly when the real part lies in `[-1, 1]`. -/
theorem Cplx.inUnit_reCoord (z : Cplx) : z.reCoord.inUnit = true ↔ -1 ≤ z.val.re ∧ z.val.re ≤ 1 := by
  rw [RealExpr.inUnit_spec, Cplx.val_reCoord]

/-- The quadrature coordinate passes the range test exactly when the imaginary part lies in `[-1, 1]`. -/
theorem Cplx.inUnit_imCoord (z : Cplx) : z.imCoord.inUnit = true ↔ -1 ≤ z.val.im ∧ z.val.im ≤ 1 := by
  rw [RealExpr.inUnit_spec, Cplx.val_imCoord]

/-- Rotating by a number multiplies the value by the number's rotor (00_scope R12). -/
theorem Cplx.val_rotate_ofNum (z : Cplx) (theta : RealExpr) :
    (z.rotate (Angle.ofNum theta)).val = z.val * rotor theta.val := by
  rw [Cplx.val_rotate, Angle.val_ofNum]

/-- Settles O32: the range test is sound for every number, a coordinate is the number of its part, and rotating and
de-rotating leaves the value as it was. -/
theorem rangeTestIsThatOfTheReals : Obligations.RangeTestIsThatOfTheReals := by
  refine ⟨RealExpr.inUnit_spec, fun z => ⟨z.inUnit_reCoord, z.inUnit_imCoord⟩,
    fun z theta => ⟨z.val_rotate_ofNum theta, ?_⟩⟩
  rw [Cplx.inUnit_reCoord, Cplx.val_rotate_derotate, abs_le]

end Sys2Proof

namespace Sys2Proof.Machine

/-! ### What a command and a step can do -/

/-- Every command answers a next state, with one response more, and writes no field but F, ROT and the count of draws:
the parameters and the host's list stay (00_scope R5, 60_exceptions R152). -/
theorem exec_eq_next (i : Instr) (s : State) : ∃ f theta d r,
    exec i s = .next { s with fifo := f, rot := theta, draws := d, responses := s.responses ++ [r] } := by
  cases i with
  | bsWrite value width =>
    rcases execBsWrite_cases value width s with ⟨_, h⟩ | ⟨_, _, h⟩ | ⟨_, _, h⟩ <;> exact ⟨_, _, _, _, h⟩
  | bsWriteAll values width =>
    rcases execBsWriteAll_cases values width s with ⟨_, h⟩ | ⟨_, _, h⟩ | ⟨_, _, h⟩ <;> exact ⟨_, _, _, _, h⟩
  | bsRead width =>
    rcases execBsRead_cases width s with ⟨_, h⟩ | ⟨_, _, h⟩ | ⟨_, _, h⟩ <;> exact ⟨_, _, _, _, h⟩
  | bsReadAll width =>
    rcases execBsReadAll_cases width s with ⟨_, h⟩ | ⟨_, h⟩ | ⟨_, h⟩ <;> exact ⟨_, _, _, _, h⟩
  | tabMod symbol =>
    rcases execTabMod_cases symbol s with ⟨_, h⟩ | ⟨_, h⟩ <;> exact ⟨_, _, _, _, h⟩
  | tabDem row col =>
    rcases execTabDem_cases row col s with ⟨_, h⟩ | ⟨_, _, h⟩ <;> exact ⟨_, _, _, _, h⟩
  | iqMod symbol =>
    rcases execIqMod_cases symbol s with ⟨_, h⟩ | ⟨_, h⟩ <;> exact ⟨_, _, _, _, h⟩
  | rotSet | rotGet | quant | iqDem | modulate | demodulate => exact ⟨_, _, _, _, rfl⟩

/-- No command changes the parameters (00_scope R5). -/
theorem exec_keeps_cfg {i : Instr} {s t : State} (h : exec i s = .next t) : t.cfg = s.cfg := by
  obtain ⟨f, theta, d, r, he⟩ := exec_eq_next i s
  cases he.symm.trans h
  rfl

theorem step_strayBeats {s : State} {bs : List Beat} {rest : List HostEvent}
    (hin : s.inbox = .strayBeats bs :: rest) : step s = .refused .malformedTransaction := by
  unfold step; rw [hin]

/-- What a step that gives a next state has done: nothing, the reset event, a command, or an illegal header's fault. -/
theorem step_next_cases {s t : State} (h : step s = .next t) :
    (s.inbox = [] ∧ t = s) ∨
    (∃ rest, s.inbox = .reset :: rest ∧ t = (s.taking rest).doReset) ∨
    (∃ hd bs rest i, s.inbox = .command hd bs :: rest ∧ decode hd bs = .ok i ∧ exec i (s.taking rest) = .next t) ∨
    (∃ hd bs rest, s.inbox = .command hd bs :: rest ∧ decode hd bs = .error .illegalCommand ∧
      t = (s.taking (leaveBeats bs rest)).answered 0xF [.cnt 0]) := by
  rcases hin : s.inbox with _ | ⟨⟨hd, bs⟩ | _ | bs, rest⟩
  · cases (step_idle hin).symm.trans h
    exact .inl ⟨rfl, rfl⟩
  · rcases hdec : decode hd bs with (_ | _) | i
    · cases (step_illegal hin hdec).symm.trans h
      exact .inr (.inr (.inr ⟨hd, bs, rest, rfl, hdec, rfl⟩))
    · cases (step_malformed hin hdec).symm.trans h
    · exact .inr (.inr (.inl ⟨hd, bs, rest, i, rfl, hdec, (step_command hin hdec).symm.trans h⟩))
  · cases (step_reset hin).symm.trans h
    exact .inr (.inl ⟨rest, rfl, rfl⟩)
  · cases (step_strayBeats hin).symm.trans h

/-- Settles O54: a step is nothing, a reset, a command or a fault, and none of them writes the parameters. -/
theorem parametersNeverChange : Obligations.ParametersNeverChange := by
  intro s t h
  rcases step_next_cases h with ⟨_, rfl⟩ | ⟨rest, _, rfl⟩ | ⟨hd, bs, rest, i, _, _, he⟩ | ⟨hd, bs, rest, _, _, rfl⟩
  · rfl
  · rw [State.doReset_cfg, State.taking_cfg]
  · rw [exec_keeps_cfg he, State.taking_cfg]
  · rw [State.answered_eq, State.respond_cfg, State.taking_cfg]

end Sys2Proof.Machine
end

section
/-!
The statements of 10_state. What a command does to F and to ROT is said once (`exec_fifo_cases`, `exec_keeps_rot`); that
the FIFO and the modulator are independent is that setting the one commutes with the commands of the other.
-/

namespace Sys2Proof

/-- The number that ROT holds after reset is 0 (10_state R30). -/
theorem RealExpr.val_rat_zero : (RealExpr.rat 0).val = 0 := by simp [RealExpr.val]

end Sys2Proof

namespace Sys2Proof.Machine

/-! ### Independence (10_state R23, R28) -/

/-- The state with `f` in the FIFO. -/
def State.setFifo (f : Bits) (s : State) : State := { s with fifo := f }

@[simp] theorem State.setFifo_fifo (s : State) (f : Bits) : (s.setFifo f).fifo = f := rfl
@[simp] theorem State.setFifo_rot (s : State) (f : Bits) : (s.setFifo f).rot = s.rot := rfl
@[simp] theorem State.setFifo_cfg (s : State) (f : Bits) : (s.setFifo f).cfg = s.cfg := rfl
@[simp] theorem State.setFifo_self (s : State) : s.setFifo s.fifo = s := rfl
@[simp] theorem State.setRot_self (s : State) : s.setRot s.rot = s := rfl

/-- The result with its next state, where there is one, changed by `u`. -/
def mapNext (u : State → State) : Result → Result
  | .next t => .next (u t)
  | .fault r => .fault r
  | .refused r => .refused r

@[simp] theorem mapNext_next (u : State → State) (t : State) : mapNext u (.next t) = .next (u t) := rfl

/-- A choice between two results is changed in each. -/
@[simp] theorem mapNext_ite (u : State → State) (p : Prop) [Decidable p] (a b : Result) :
    mapNext u (if p then a else b) = if p then mapNext u a else mapNext u b := apply_ite (mapNext u) p a b

/-- A command of the modulator does the same whatever F holds (10_state R28). -/
theorem exec_setFifo {i : Instr} (hi : isBsCommand i = false) (s : State) (f : Bits) :
    exec i (s.setFifo f) = mapNext (State.setFifo f) (exec i s) := by
  cases i with
  | bsWrite | bsWriteAll | bsRead | bsReadAll => cases hi
  | tabMod symbol => simp only [exec, execTabMod, mapNext_ite]; rfl
  | tabDem row col => simp only [exec, execTabDem, mapNext_ite]; rfl
  | iqMod symbol =>
    simp only [exec, execIqMod, State.setFifo_cfg, State.setFifo_rot]
    cases mapSymbol s.cfg s.rot symbol <;> rfl
  | rotSet | rotGet | quant | iqDem | modulate | demodulate => rfl

/-- A command that neither reads nor writes ROT does the same whatever ROT holds (10_state R23). -/
theorem exec_setRot {i : Instr} (hread : readsRot i = false) (hwrite : ∀ x, i ≠ .rotSet x) (s : State)
    (theta : RealExpr) : exec i (s.setRot theta) = mapNext (State.setRot theta) (exec i s) := by
  cases i with
  | rotGet | iqMod | iqDem | modulate | demodulate => cases hread
  | rotSet x => exact absurd rfl (hwrite x)
  | bsWrite value width => simp only [exec, execBsWrite, mapNext_ite]; rfl
  | bsWriteAll values width => simp only [exec, execBsWriteAll, mapNext_ite]; rfl
  | bsRead width => simp only [exec, execBsRead, mapNext_ite]; rfl
  | bsReadAll width => simp only [exec, execBsReadAll, mapNext_ite]; rfl
  | tabMod symbol => simp only [exec, execTabMod, mapNext_ite]; rfl
  | tabDem row col => simp only [exec, execTabDem, mapNext_ite]; rfl
  | quant => rfl

/-- Settles O53: setting F commutes with the commands that are not the FIFO's, and setting ROT with those that neither
read nor write it. -/
theorem fifoAndModulatorAreIndependent : Obligations.FifoAndModulatorAreIndependent := by
  refine ⟨fun i s t f hi h => ?_, fun i s t theta hread hwrite h => ?_⟩
  · exact (exec_setFifo hi s f).trans (congrArg (mapNext (State.setFifo f)) h)
  · exact (exec_setRot hread hwrite s theta).trans (congrArg (mapNext (State.setRot theta)) h)

/-! ### What a command does to each field -/

/-- A command of the modulator leaves F: it commutes with writing the old F back. -/
theorem exec_keeps_fifo {i : Instr} {s t : State} (hi : isBsCommand i = false) (h : exec i s = .next t) :
    t.fifo = s.fifo := by
  have hself := exec_setFifo hi s s.fifo
  rw [State.setFifo_self, h, mapNext_next] at hself
  injection hself with ht
  rw [ht, State.setFifo_fifo]

/-- Every command but ROT.SET leaves ROT (10_state R23). -/
theorem exec_keeps_rot {i : Instr} {s t : State} (hwrite : ∀ x, i ≠ .rotSet x) (h : exec i s = .next t) :
    t.rot = s.rot := by
  cases hread : readsRot i with
  | false =>
    have hself := exec_setRot hread hwrite s s.rot
    rw [State.setRot_self, h, mapNext_next] at hself
    injection hself with ht
    rw [ht, State.setRot_rot]
  | true =>
    cases i with
    | bsWrite | bsWriteAll | bsRead | bsReadAll | rotSet | tabMod | tabDem | quant => cases hread
    | rotGet | iqDem | modulate | demodulate => cases h; rfl
    | iqMod symbol =>
      rcases execIqMod_cases symbol s with ⟨_, he⟩ | ⟨_, he⟩ <;> cases he.symm.trans h <;> rfl

/-- No command takes or adds an event of the host (30_encoding R60). -/
theorem exec_keeps_inbox {i : Instr} {s t : State} (h : exec i s = .next t) : t.inbox = s.inbox := by
  obtain ⟨f, theta, d, r, he⟩ := exec_eq_next i s
  cases he.symm.trans h
  rfl

/-- What a command does to F: it removes bits from the head, perhaps none, or appends bits for which there is room
(10_state R24, 40_bitstream R80 to R83). -/
theorem exec_fifo_cases {i : Instr} {s t : State} (h : exec i s = .next t) :
    (∃ k, t.fifo = s.fifo.drop k) ∨ ∃ b : Bits, s.hasRoom b.length ∧ t.fifo = s.fifo ++ b := by
  cases i with
  | bsWrite value width =>
    rcases execBsWrite_cases value width s with ⟨_, he⟩ | ⟨_, _, he⟩ | ⟨_, hroom, he⟩ <;> cases he.symm.trans h
    · exact .inl ⟨0, rfl⟩
    · exact .inl ⟨0, rfl⟩
    · exact .inr ⟨lsbits value width.toNat, by rwa [lsbits_length], rfl⟩
  | bsWriteAll values width =>
    rcases execBsWriteAll_cases values width s with ⟨_, he⟩ | ⟨_, _, he⟩ | ⟨_, hroom, he⟩ <;> cases he.symm.trans h
    · exact .inl ⟨0, rfl⟩
    · exact .inl ⟨0, rfl⟩
    · exact .inr ⟨lsbitsAll values width.toNat, by rwa [lsbitsAll_length], rfl⟩
  | bsRead width =>
    rcases execBsRead_cases width s with ⟨_, he⟩ | ⟨_, _, he⟩ | ⟨_, _, he⟩ <;> cases he.symm.trans h
    · exact .inl ⟨0, rfl⟩
    · exact .inl ⟨0, rfl⟩
    · exact .inl ⟨_, rfl⟩
  | bsReadAll width =>
    rcases execBsReadAll_cases width s with ⟨_, he⟩ | ⟨_, he⟩ | ⟨_, he⟩ <;> cases he.symm.trans h
    · exact .inl ⟨0, rfl⟩
    · exact .inl ⟨0, rfl⟩
    · exact .inl ⟨_, rfl⟩
  | rotSet | rotGet | tabMod | tabDem | quant | iqMod | iqDem | modulate | demodulate =>
    exact .inl ⟨0, exec_keeps_fifo rfl h⟩

/-! ### The capacity of F (10_state R24, R31 b) -/

/-- F stays within its capacity where the parameters stay and F does not grow. -/
theorem State.withinDepth.mono {s t : State} (hs : s.withinDepth) (hcfg : t.cfg = s.cfg)
    (hlen : t.fifo.length ≤ s.fifo.length) : t.withinDepth :=
  fun d hd => hlen.trans (hs d (hcfg ▸ hd))

/-- No command takes F beyond its capacity. -/
theorem exec_keeps_withinDepth {i : Instr} {s t : State} (hs : s.withinDepth) (h : exec i s = .next t) :
    t.withinDepth := by
  have hcfg : t.cfg = s.cfg := exec_keeps_cfg h
  rcases exec_fifo_cases h with ⟨k, hf⟩ | ⟨b, hroom, hf⟩
  · exact hs.mono hcfg (by rw [hf, List.length_drop]; omega)
  · intro d hd
    rw [hf, List.length_append]
    exact hroom d (hcfg ▸ hd)

/-- Settles O55: a step is nothing, a reset that empties F, a command or a fault, and a command appends only what there
is room for. -/
theorem stepKeepsFifoWithinDepth : Obligations.StepKeepsFifoWithinDepth := by
  intro s t hs h
  rcases step_next_cases h with ⟨_, rfl⟩ | ⟨rest, _, rfl⟩ | ⟨hd, bs, rest, i, _, _, he⟩ | ⟨hd, bs, rest, _, _, rfl⟩
  · exact hs
  · exact hs.mono rfl (Nat.zero_le _)
  · exact exec_keeps_withinDepth (s := s.taking rest) (hs.mono rfl le_rfl) he
  · exact hs.mono rfl le_rfl

/-! ### Safe states (30_encoding R60, 60_exceptions R152, R155) -/

/-- A transaction with an illegal header is well framed exactly when no beat came with it. -/
theorem HostEvent.wellFramed_illegal {h : Header} {bs : List Beat} (hdec : decode h bs = .error .illegalCommand) :
    (HostEvent.command h bs).wellFramed = true ↔ bs = [] := by
  simp [HostEvent.wellFramed, hdec]

/-- A transaction with the wrong beats is not well framed. -/
theorem HostEvent.not_wellFramed_malformed {h : Header} {bs : List Beat} (hdec : decode h bs = .error .malformed) :
    ¬ (HostEvent.command h bs).wellFramed = true := by
  simp [HostEvent.wellFramed, hdec]

/-- A step answers a next state where every event before the block is well framed. -/
theorem step_eq_next_of_wellFramed {s : State} (hs : ∀ e ∈ s.inbox, e.wellFramed = true) : ∃ t, step s = .next t := by
  rcases hin : s.inbox with _ | ⟨e, rest⟩
  · exact ⟨s, step_idle hin⟩
  have he : e.wellFramed = true := hs e (hin ▸ List.mem_cons_self)
  cases e with
  | reset => exact ⟨_, step_reset hin⟩
  | strayBeats bs => cases he
  | command h bs =>
    match hdec : decode h bs with
    | .ok i =>
      obtain ⟨f, theta, d, r, hexec⟩ := exec_eq_next i (s.taking rest)
      exact ⟨_, (step_command hin hdec).trans hexec⟩
    | .error .illegalCommand => exact ⟨_, step_illegal hin hdec⟩
    | .error .malformed => exact absurd he (HostEvent.not_wellFramed_malformed hdec)

/-- A step adds no event before the block where every event there is well framed: what an illegal header leaves is no
beat. -/
theorem step_inbox_subset {s t : State} (hs : ∀ e ∈ s.inbox, e.wellFramed = true) (h : step s = .next t) :
    t.inbox ⊆ s.inbox := by
  rcases step_next_cases h with
    ⟨_, rfl⟩ | ⟨rest, hin, rfl⟩ | ⟨hd, bs, rest, i, hin, _, he⟩ | ⟨hd, bs, rest, hin, hdec, rfl⟩
  · exact List.Subset.refl _
  · rw [hin, State.doReset_inbox, State.taking_inbox]
    exact List.subset_cons_self _ _
  · rw [hin, exec_keeps_inbox he, State.taking_inbox]
    exact List.subset_cons_self _ _
  · obtain rfl : bs = [] := (HostEvent.wellFramed_illegal hdec).1 (hs _ (hin ▸ List.mem_cons_self))
    rw [hin, State.answered_eq, State.respond_inbox, State.taking_inbox]
    exact List.subset_cons_self _ _

/-- Settles O57: no well-framed event is refused, F stays within its capacity, and no ill-framed event comes about. -/
theorem safeStatesStepToSafeStates : Obligations.SafeStatesStepToSafeStates := by
  rintro s ⟨hdepth, hframed⟩
  obtain ⟨t, h⟩ := step_eq_next_of_wellFramed hframed
  exact ⟨t, h, stepKeepsFifoWithinDepth s t hdepth h, fun e he => hframed e (step_inbox_subset hframed h he)⟩

/-! ### ROT, the step and reset -/

/-- Settles O23: of the things a step can do, only the reset event and ROT.SET write ROT. -/
theorem onlyRotSetAndResetWriteRot : Obligations.OnlyRotSetAndResetWriteRot := by
  intro s t h hne
  rcases step_next_cases h with ⟨_, rfl⟩ | ⟨rest, hin, _⟩ | ⟨hd, bs, rest, i, hin, hdec, he⟩ | ⟨hd, bs, rest, _, _, rfl⟩
  · exact absurd rfl hne
  · exact .inl ⟨rest, hin⟩
  · by_cases hi : ∃ x, i = .rotSet x
    · obtain ⟨x, rfl⟩ := hi
      cases he
      exact .inr ⟨hd, bs, rest, hin, hdec⟩
    · exact absurd (exec_keeps_rot (not_exists.1 hi) he) hne
  · exact absurd rfl hne

/-- Settles O7: by the law of a step that accepts a transaction; that the command is well formed is not needed. -/
theorem stepRunsDecodedCommand : Obligations.StepRunsDecodedCommand :=
  fun _ _ _ _ _ hin hdec _ => step_command hin hdec

/-- Settles O8: the reset values as written, and the table's values by `modtab_val`. -/
theorem resetLeavesSpecValues : Obligations.ResetLeavesSpecValues := by
  refine ⟨fun c => ⟨rfl, RealExpr.val_rat_zero, rfl, fun k _ => modtab_val c k, fun _ _ _ _ => rfl⟩, fun s rest hin => ?_⟩
  exact ⟨_, step_reset hin, rfl, RealExpr.val_rat_zero, rfl⟩

/-- The reset state is safe: F is empty, and no event stands before the block (10_state R30, R31). -/
theorem State.resetOf_safe (c : Config) : (State.resetOf c).Safe :=
  ⟨fun d _ => Nat.zero_le d, fun _ he => nomatch he⟩

/-- Settles O56: the default block's reset state is one of those of every configuration. -/
theorem resetIsSafe : Obligations.ResetIsSafe :=
  ⟨fun c => ⟨(State.resetOf_safe c).1, State.resetOf_safe c⟩, State.resetOf_safe Config.default⟩

end Sys2Proof.Machine
end

section
/-!
The statements of 20_memory. What reads take from F is a run of it, and F after a burst is one little-endian number in
bits, so a read answers a digit of that number. A command without side effect answers the same whatever responses and
draws came before.
-/

namespace Sys2Proof

/-- Words below `2^w`, put into bits at width `w` from place `n` on, are the digits of one number (20_memory R42). -/
theorem sum_zipIdx_eq_bitsVal (w : Nat) : ∀ (vs : List Nat) (n : Nat), (∀ v ∈ vs, v < 2 ^ w) →
    ((vs.zipIdx n).map fun vk => vk.1 * 2 ^ (vk.2 * w)).sum = 2 ^ (n * w) * bitsVal (lsbitsAll vs w)
  | [], _, _ => by simp
  | v :: vs, n, h => by
    have ih := sum_zipIdx_eq_bitsVal w vs (n + 1) fun x hx => h x (List.mem_cons_of_mem v hx)
    rw [List.zipIdx_cons, List.map_cons, List.sum_cons, ih, lsbitsAll_cons, bitsVal_append, lsbits_length,
      bitsVal_lsbits, Nat.mod_eq_of_lt (h v List.mem_cons_self)]
    ring

end Sys2Proof

namespace Sys2Proof.Machine

/-! ### Reads of whole words (20_memory R42, 40_bitstream R82) -/

/-- A read of no more bits than F holds takes exactly its width (40_bitstream R82). -/
theorem exec_bsRead_whole {w : Nat} {s : State} (hw : 0 < w) (h : w ≤ s.fifo.length) :
    exec (.bsRead w) s = complete [.int (bitsVal (s.fifo.take w))] (s.fifoDrop w) := by
  rw [exec_bsRead_some (List.ne_nil_of_length_pos (by omega)), min_eq_left h]

/-- Reads of whole words take a run from the head of F (40_bitstream R82). -/
theorem execAll_bsRead_whole {w : Nat} (hw : 0 < w) : ∀ (m : Nat) (s : State), m * w ≤ s.fifo.length →
    ∃ u, execAll (List.replicate m (.bsRead w)) s = .next u ∧ u.fifo = s.fifo.drop (m * w)
  | 0, s, _ => ⟨s, rfl, by simp⟩
  | m + 1, s, h => by
    rw [Nat.succ_mul] at h
    obtain ⟨u, hu, hf⟩ := execAll_bsRead_whole hw m
      ((s.fifoDrop w).respond (okResponse [.int (bitsVal (s.fifo.take w))])) (by simp; omega)
    refine ⟨u, ?_, ?_⟩
    · rw [List.replicate_succ, execAll, exec_bsRead_whole hw (by omega)]
      exact hu
    · rw [hf, State.respond_fifo, State.fifoDrop_fifo, List.drop_drop, Nat.succ_mul, Nat.add_comm]

/-- Settles O19: F after the burst is the number in bits, the reads before the last take whole words from its head, and
the last answers a run of it. -/
theorem mixedWidthReadsCutOneNumber : Obligations.MixedWidthReadsCutOneNumber := by
  intro V w1 w2 m s t hempty _ hw2 hV hroom hwrite hm
  cases (exec_bsWriteAll_room hroom).symm.trans hwrite
  have hsum := sum_zipIdx_eq_bitsVal w1 V 0 hV
  rw [Nat.zero_mul, pow_zero, one_mul] at hsum
  have hlen : m * w2 + w2 ≤ (lsbitsAll V w1).length := by rwa [lsbitsAll_length, ← Nat.succ_mul]
  have hF : ((s.fifoPush (lsbitsAll V w1)).respond (okResponse [])).fifo = lsbitsAll V w1 := by simp [hempty]
  obtain ⟨u, hu, hfifo⟩ := execAll_bsRead_whole hw2 m _ (by rw [hF]; omega)
  rw [hF] at hfifo
  refine ⟨u, _, hu, exec_bsRead_whole hw2 (by rw [hfifo, List.length_drop]; omega), ?_⟩
  rw [State.respond_responses, State.fifoDrop_responses, hfifo, bitsVal_window _ _ _ hlen, hsum]
  rfl

/-! ### Commands without side effect (20_memory R47) -/

/-- Off the ties the loop of DEMODULATE answers the same whichever draw it starts from. -/
theorem demapSamples_draws {c : Config} {rot : RealExpr} (d d' : Nat) : ∀ (k : Nat) {l : List Cplx},
    (∀ p ∈ l, OffTies c (p.val * rotor (-rot.val))) → demapSamples c rot d k l = demapSamples c rot d' k l
  | _, [], _ => rfl
  | k, p :: l, h => by
    rw [demapSamples, demapSamples, demapSample_draws (h p List.mem_cons_self) _ (d' + quantDraws * k),
      demapSamples_draws d d' (k + 1) fun x hx => h x (List.mem_cons_of_mem p hx)]

/-- In `s` the command answers `r` and writes no state of the block, whatever responses and draws came before. -/
def AnswersAlways (i : Instr) (s : State) (r : Response) : Prop :=
  ∀ rs d, ∃ d', exec i { s with responses := rs, draws := d } = .next { s with responses := rs ++ [r], draws := d' }

/-- A command that always answers the same does so twice in a row. -/
theorem AnswersAlways.execAll_twice {i : Instr} {s : State} {r : Response} (h : AnswersAlways i s r) :
    ∃ d, execAll [i, i] s = .next { s with responses := s.responses ++ [r] ++ [r], draws := d } := by
  obtain ⟨d₁, h₁⟩ := h s.responses s.draws
  obtain ⟨d₂, h₂⟩ := h (s.responses ++ [r]) d₁
  have h₁' : exec i s = .next { s with responses := s.responses ++ [r], draws := d₁ } := h₁
  exact ⟨d₂, by simp only [execAll, h₁', h₂]⟩

theorem answersAlways_rotGet (s : State) : AnswersAlways .rotGet s (okResponse [.real s.rot]) := fun _ d => ⟨d, rfl⟩

theorem exists_answersAlways_tabMod (x : Nat) (s : State) : ∃ r, AnswersAlways (.tabMod x) s r := by
  by_cases h : s.cfg.order ≤ x
  · exact ⟨faultResponse .invalidSymbol 0, fun _ d => ⟨d, if_pos h⟩⟩
  · exact ⟨okResponse [.cplx (modtab s.cfg x)], fun _ d => ⟨d, if_neg h⟩⟩

theorem exists_answersAlways_tabDem (a b : Nat) (s : State) : ∃ r, AnswersAlways (.tabDem a b) s r := by
  by_cases h : s.cfg.dim ≤ a ∨ s.cfg.dim ≤ b
  · exact ⟨faultResponse .outOfRange 0, fun _ d => ⟨d, if_pos h⟩⟩
  · exact ⟨okResponse [.int (demgrid s.cfg a b)], fun _ d => ⟨d, if_neg h⟩⟩

theorem exists_answersAlways_iqMod (x : Nat) (s : State) : ∃ r, AnswersAlways (.iqMod x) s r := by
  cases h : mapSymbol s.cfg s.rot x with
  | none => exact ⟨faultResponse .invalidSymbol 0, fun _ d => ⟨d, by simp only [exec, execIqMod, h]; rfl⟩⟩
  | some p => exact ⟨okResponse [.cplx p], fun _ d => ⟨d, by simp only [exec, execIqMod, h]; rfl⟩⟩

theorem answersAlways_modulate (l : List Nat) (s : State) :
    AnswersAlways (.modulate l) s (answerModulate (mapChunks s.cfg s.rot 0 (chunksOf s.cfg l))) :=
  fun _ d => ⟨d, rfl⟩

theorem answersAlways_quant {p : Cplx} {s : State} (h : OffTies s.cfg p.val) :
    AnswersAlways (.quant p) s (answerQuant (quantize s.cfg p 0)) :=
  fun _ d => ⟨_, by rw [quantize_draws h 0 d]; rfl⟩

theorem answersAlways_iqDem {p : Cplx} {s : State} (h : OffTies s.cfg (p.val * rotor (-s.rot.val))) :
    AnswersAlways (.iqDem p) s (answerDemap (demapSample s.cfg s.rot p 0)) :=
  fun _ d => ⟨_, by rw [demapSample_draws h 0 d]; rfl⟩

theorem answersAlways_demodulate {ps : List Cplx} {s : State}
    (h : ∀ p ∈ ps, OffTies s.cfg (p.val * rotor (-s.rot.val))) :
    AnswersAlways (.demodulate ps) s (answerDemodulate s.cfg (demapSamples s.cfg s.rot 0 0 ps)) :=
  fun _ d => ⟨_, by rw [demapSamples_draws 0 d 0 h]; rfl⟩

/-- Settles O35: each of the commands always answers the same, by the laws above. -/
theorem repeatedCommandsAnswerTheSame : Obligations.RepeatedCommandsAnswerTheSame := by
  refine ⟨fun i s hi => ?_, fun theta s => ⟨_, _, rfl, rfl, rfl, rfl⟩⟩
  have hr : ∃ r, AnswersAlways i s r := by
    rcases hi with rfl | ⟨x, rfl | rfl⟩ | ⟨a, b, rfl⟩ | ⟨l, rfl⟩ | ⟨p, rfl, h⟩ | ⟨p, rfl, h⟩ | ⟨ps, rfl, h⟩
    · exact ⟨_, answersAlways_rotGet s⟩
    · exact exists_answersAlways_tabMod x s
    · exact exists_answersAlways_iqMod x s
    · exact exists_answersAlways_tabDem a b s
    · exact ⟨_, answersAlways_modulate l s⟩
    · exact ⟨_, answersAlways_quant h⟩
    · exact ⟨_, answersAlways_iqDem h⟩
    · exact ⟨_, answersAlways_demodulate h⟩
  obtain ⟨r, hr⟩ := hr
  obtain ⟨d, hd⟩ := hr.execAll_twice
  exact ⟨_, r, hd, List.append_assoc _ _ _, rfl, rfl⟩

end Sys2Proof.Machine
end

section
/-!
The statements of 30_encoding. The decoder answers a command exactly where the encoder gives the transaction back, and
IllegalCommand exactly where the header spells none, so what is left is malformed. The burst commands of the FIFO are
sequences of the single ones because both write, or read, one run of F.
-/

namespace Sys2Proof

/-! ### Decoding an encoding (30_encoding R61 to R65) -/

/-- Settles O2: the header gives back its opcode and its width, and the beats their operands. -/
theorem decodeInvertsEncode : Obligations.DecodeInvertsEncode := by
  intro i hi
  cases i with
  | bsWrite _ width | bsWriteAll _ width | bsRead width | bsReadAll width =>
    have hw : widthFits width = true := hi
    simp [encode, encodeHeader, encodeBeats, decode, decodeCW, takeInt, takeNone, headerCW_width hw]
  | rotSet | rotGet | tabMod | tabDem | quant | iqMod | iqDem | modulate | demodulate =>
    simp [encode, encodeHeader, encodeBeats, decode, decodeC0, takeInt, takeInt2, takeReal, takeCplx, takeNone]

/-- Settles O1: the words compute to their commands and errors. -/
theorem decodeReadsSpecWords : Obligations.DecodeReadsSpecWords :=
  ⟨rfl, rfl, rfl, rfl, rfl, rfl, rfl, rfl, rfl, rfl, rfl, rfl, rfl, rfl, rfl, rfl⟩

/-! ### Encoding what was decoded -/

/-- A CW header is the one of its opcode and its width (30_encoding R61). -/
theorem headerCW_of_op {h : Header} {op : BitVec 4} (hop : (Header.op h).toNat = op.toNat) :
    headerCW op (Header.width h) = h := by
  rw [headerCW, Header.width, BitVec.ofInt_toInt, ← BitVec.eq_of_toNat_eq hop, ← header_eq_fields]

/-- A C0 header with a zero `z` is the one of its opcode (30_encoding R61). -/
theorem headerC0_of_op {h : Header} {op : BitVec 4} (hop : (Header.op h).toNat = op.toNat) (hlow : Header.low h = 0) :
    headerC0 op = h := by
  rw [headerC0, ← hlow, ← BitVec.eq_of_toNat_eq hop, ← header_eq_fields]

theorem decodeCW_eq_ok {o : Option Instr} {i : Instr} : decodeCW o = .ok i ↔ o = some i := by
  cases o <;> simp [decodeCW]

theorem decodeC0_eq_ok {h : Header} {o : Option Instr} {i : Instr} :
    decodeC0 h o = .ok i ↔ Header.low h = 0 ∧ o = some i := by
  unfold decodeC0
  split_ifs with hlow
  · cases o <;> simp [hlow]
  · exact iff_of_false nofun fun hi => hlow hi.1

theorem takeNone_eq_some {i j : Instr} {bs : List Beat} : takeNone i bs = some j ↔ bs = [] ∧ i = j := by
  cases bs <;> simp [takeNone]

theorem takeInt_eq_some {f : Nat → Instr} {bs : List Beat} {i : Instr} :
    takeInt f bs = some i ↔ ∃ v, bs = [.int v] ∧ f v = i := by
  fun_cases takeInt f bs <;> grind [takeInt]

theorem takeInt2_eq_some {f : Nat → Nat → Instr} {bs : List Beat} {i : Instr} :
    takeInt2 f bs = some i ↔ ∃ a b, bs = [.int a, .int b] ∧ f a b = i := by
  fun_cases takeInt2 f bs <;> grind [takeInt2]

theorem takeReal_eq_some {f : RealExpr → Instr} {bs : List Beat} {i : Instr} :
    takeReal f bs = some i ↔ ∃ x, bs = [.real x] ∧ f x = i := by
  fun_cases takeReal f bs <;> grind [takeReal]

theorem takeCplx_eq_some {f : Cplx → Instr} {bs : List Beat} {i : Instr} :
    takeCplx f bs = some i ↔ ∃ p, bs = [.cplx p] ∧ f p = i := by
  fun_cases takeCplx f bs <;> grind [takeCplx]

/-- Settles O3: each opcode's beats are those of its command, and the header is that opcode with the width or zeros. -/
theorem encodeInvertsDecode : Obligations.EncodeInvertsDecode := by
  intro h bs i hdec
  unfold decode at hdec
  split at hdec
  case h_1 hop =>
    obtain ⟨v, rfl, rfl⟩ := takeInt_eq_some.1 (decodeCW_eq_ok.1 hdec)
    exact ⟨h.width_fits, Prod.ext (headerCW_of_op hop) rfl⟩
  case h_2 hop =>
    obtain ⟨vs, hvs, rfl⟩ := Option.map_eq_some_iff.1 (decodeCW_eq_ok.1 hdec)
    exact ⟨h.width_fits, Prod.ext (headerCW_of_op hop) (Beat.intBurst_eq_some hvs).symm⟩
  case h_3 hop | h_4 hop =>
    obtain ⟨rfl, rfl⟩ := takeNone_eq_some.1 (decodeCW_eq_ok.1 hdec)
    exact ⟨h.width_fits, Prod.ext (headerCW_of_op hop) rfl⟩
  case h_14 => cases hdec
  all_goals obtain ⟨hlow, htake⟩ := decodeC0_eq_ok.1 hdec
  case h_5 hop =>
    obtain ⟨x, rfl, rfl⟩ := takeReal_eq_some.1 htake
    exact ⟨rfl, Prod.ext (headerC0_of_op hop hlow) rfl⟩
  case h_6 hop =>
    obtain ⟨rfl, rfl⟩ := takeNone_eq_some.1 htake
    exact ⟨rfl, Prod.ext (headerC0_of_op hop hlow) rfl⟩
  case h_7 hop | h_10 hop =>
    obtain ⟨v, rfl, rfl⟩ := takeInt_eq_some.1 htake
    exact ⟨rfl, Prod.ext (headerC0_of_op hop hlow) rfl⟩
  case h_8 hop =>
    obtain ⟨a, b, rfl, rfl⟩ := takeInt2_eq_some.1 htake
    exact ⟨rfl, Prod.ext (headerC0_of_op hop hlow) rfl⟩
  case h_9 hop | h_11 hop =>
    obtain ⟨p, rfl, rfl⟩ := takeCplx_eq_some.1 htake
    exact ⟨rfl, Prod.ext (headerC0_of_op hop hlow) rfl⟩
  case h_12 hop =>
    obtain ⟨vs, hvs, rfl⟩ := Option.map_eq_some_iff.1 htake
    exact ⟨rfl, Prod.ext (headerC0_of_op hop hlow) (Beat.intBurst_eq_some hvs).symm⟩
  case h_13 hop =>
    obtain ⟨ps, hps, rfl⟩ := Option.map_eq_some_iff.1 htake
    exact ⟨rfl, Prod.ext (headerC0_of_op hop hlow) (Beat.cplxBurst_eq_some hps).symm⟩

/-- A transaction decodes to a command exactly where it is the encoding of it, well formed. -/
theorem decode_eq_ok_iff {h : Header} {bs : List Beat} {i : Instr} :
    decode h bs = .ok i ↔ i.wellFormed = true ∧ encode i = (h, bs) :=
  ⟨encodeInvertsDecode h bs i, fun ⟨hwf, henc⟩ => by simpa only [henc] using decodeInvertsEncode i hwf⟩

/-- A CW header decodes with the beats of a command of its opcode and its width. -/
theorem decode_of_cw {h : Header} {op : BitVec 4} {bs : List Beat} {i : Instr} (hop : (Header.op h).toNat = op.toNat)
    (henc : encode i = (headerCW op h.width, bs)) (hwf : i.wellFormed = widthFits h.width) : decode h bs = .ok i :=
  decode_eq_ok_iff.2 ⟨hwf.trans h.width_fits, by rw [henc, headerCW_of_op hop]⟩

/-! ### The decoder's errors (30_encoding R66, R67, 60_exceptions R150) -/

theorem decodeCW_ne_illegalCommand (o : Option Instr) : decodeCW o ≠ .error .illegalCommand := by
  cases o <;> exact nofun

theorem decodeC0_eq_illegalCommand {h : Header} {o : Option Instr} :
    decodeC0 h o = .error .illegalCommand ↔ Header.low h ≠ 0 := by
  unfold decodeC0
  split_ifs with hlow
  · cases o <;> exact iff_of_false nofun (not_not.2 hlow)
  · exact iff_of_true rfl hlow

end Sys2Proof

namespace Sys2Proof.Machine

/-- The decoder's IllegalCommand depends on the header alone. -/
theorem decode_eq_illegalCommand_iff {h : Header} {bs : List Beat} :
    decode h bs = .error .illegalCommand ↔ SpellsNone h := by
  unfold decode SpellsNone
  split
  case h_1 hop | h_2 hop | h_3 hop | h_4 hop => simp [hop, decodeCW_ne_illegalCommand]
  case h_14 =>
    have hlt : (Header.op h).toNat < 16 := (Header.op h).isLt
    refine iff_of_true rfl (.inl ?_)
    simp only [List.mem_cons, List.not_mem_nil, or_false]
    -- of the 16 opcodes the 13 of the commands are excluded by the earlier cases
    grind
  case h_5 hop | h_6 hop | h_7 hop | h_8 hop | h_9 hop | h_10 hop | h_11 hop | h_12 hop | h_13 hop =>
    simp [hop, decodeC0_eq_illegalCommand]

/-- Settles O5: what decodes neither to a command nor to IllegalCommand is malformed, and commands are
encodings. -/
theorem decoderErrorsAreTheHeadersFirst : Obligations.DecoderErrorsAreTheHeadersFirst := by
  refine fun h bs => ⟨decode_eq_illegalCommand_iff, ?_⟩
  have hok : (∀ i : Instr, i.wellFormed = true → encode i ≠ (h, bs)) ↔ ∀ i, decode h bs ≠ .ok i := by
    simp only [Ne, decode_eq_ok_iff, not_and]
  rw [hok, ← decode_eq_illegalCommand_iff (bs := bs)]
  rcases decode h bs with (_ | _) | i <;> simp

/-! ### The step on an illegal header, and on a negative width (30_encoding R66, R67) -/

/-- A header that spells no command answers IllegalCommand, whatever beats came. -/
theorem step_spellsNone {s : State} {h : Header} {bs : List Beat} {rest : List HostEvent}
    (hin : s.inbox = .command h bs :: rest) (hnone : SpellsNone h) :
    step s = .next ((s.taking (leaveBeats bs rest)).answered 0xF [.cnt 0]) :=
  step_illegal hin (decode_eq_illegalCommand_iff.2 hnone)

/-- A negative width answers InvalidWidth, whatever the state. -/
theorem exec_negative_width {i : Instr} {w : Int} (hi : widthOf i = some w) (hw : w < 0) (s : State) :
    exec i s = .next (s.answered 0x8 [.cnt 0]) := by
  cases i <;> cases hi <;> exact if_pos hw

/-- Settles O4: IllegalCommand is answered by `step_spellsNone`; a CW header with its beats is the encoding of a command
of its width, which decodes and, where the width is negative, answers InvalidWidth. -/
theorem illegalHeadersAnswerIllegalCommand : Obligations.IllegalHeadersAnswerIllegalCommand := by
  refine ⟨fun s h bs rest hin hnone => ?_, fun s h bs rest v vs hin hcw => ?_⟩
  · rw [step_spellsNone hin hnone]
    cases bs <;> rfl
  · have hdec : ∃ i, decode h bs = .ok i ∧ widthOf i = some h.width := by
      rcases hcw with ⟨hop, rfl⟩ | ⟨hop, rfl⟩ | ⟨hop, rfl⟩
      · exact ⟨.bsWrite v h.width, decode_of_cw (op := 1) hop rfl rfl, rfl⟩
      · exact ⟨.bsWriteAll vs h.width, decode_of_cw (op := 2) hop rfl rfl, rfl⟩
      · rcases List.mem_pair.1 hop with hop | hop
        · exact ⟨.bsRead h.width, decode_of_cw (op := 3) hop rfl rfl, rfl⟩
        · exact ⟨.bsReadAll h.width, decode_of_cw (op := 4) hop rfl rfl, rfl⟩
    refine ⟨hdec, fun hneg => ?_⟩
    obtain ⟨i, hi, hw⟩ := hdec
    rw [step_command hin hi, exec_negative_width hw hneg]

/-- Settles O6: the beats are left before the block as stray beats, and those are refused. -/
theorem illegalHeaderLeavesItsBeats : Obligations.IllegalHeaderLeavesItsBeats :=
  fun _ _ _ _ _ hin hnone => ⟨_, step_spellsNone hin hnone, rfl, rfl, rfl, rfl, step_strayBeats rfl⟩

/-! ### One answer for each command (30_encoding R60, R63) -/

/-- Settles O10: of the fields it names a command writes the responses only, and those by one more. -/
theorem everyCommandAnswersOnce : Obligations.EveryCommandAnswersOnce := by
  intro i s
  obtain ⟨f, theta, d, r, h⟩ := exec_eq_next i s
  exact ⟨_, r, h, rfl, rfl, rfl⟩

/-- Up to `DIM` 4 every word of `DIM` bits is a symbol (41_constellation R104). -/
theorem Config.two_pow_dim_le_order {c : Config} (h : c.dim ≤ 4) : 2 ^ c.dim ≤ c.order := by
  have h2 := c.two_le_dim
  unfold Config.order
  interval_cases c.dim <;> decide

/-- A chunk that is no symbol needs `DIM` at least 5 (41_constellation R104). -/
theorem five_le_dim_of_chunk {c : Config} {data : List Nat} {x : Nat} (hx : x ∈ chunksOf c data) (hno : c.order ≤ x) :
    5 ≤ c.dim := by
  by_contra hlt
  have hlow : x < 2 ^ c.dim := groups_lt _ _ x hx
  have := Config.two_pow_dim_le_order (c := c) (by omega)
  omega

/-- The commands that may raise a cause with `info`, and what holds where they do (60_exceptions R141). -/
def MayRaise (i : Instr) (s : State) (info : Nat) : Cause → Prop
  | .invalidWidth => info = 0 ∧ ∃ w, widthOf i = some w ∧ w < 0
  | .invalidSymbol => (info = 0 ∧ ∃ k, s.cfg.order ≤ k ∧ (i = .tabMod k ∨ i = .iqMod k)) ∨
      ∃ data, i = .modulate data ∧ ∃ x ∈ chunksOf s.cfg data, s.cfg.order ≤ x
  | .outOfRange => (info = 0 ∧ ((∃ a b, i = .tabDem a b) ∨ (∃ p, i = .quant p) ∨ ∃ p, i = .iqDem p)) ∨
      ∃ ps, i = .demodulate ps ∧ info < ps.length
  | .zeroWidth => info = 0 ∧ i = .bsReadAll 0
  | .fifoOverflow => info = 0 ∧ ((∃ v w, i = .bsWrite v w ∧ ¬ s.hasRoom w.toNat) ∨
      ∃ vs w, i = .bsWriteAll vs w ∧ ¬ s.hasRoom (vs.length * w.toNat))
  | .illegalCommand => False

/-- How a command answers: OK, NoData, or a cause that it may raise; `t` is the state in which it answers. -/
theorem exec_answer_cases (i : Instr) (s : State) : ∃ t : State,
    ((∃ bs, exec i s = complete bs t) ∨
     (exec i s = completeNoData t ∧ s.fifo = [] ∧ ∃ w, i = .bsRead w) ∨
     ∃ c info, exec i s = raise c info t ∧ MayRaise i s info c) ∧ t.responses = s.responses := by
  cases i with
  | bsWrite value width =>
    rcases execBsWrite_cases value width s with ⟨hw, he⟩ | ⟨_, hroom, he⟩ | ⟨_, _, he⟩
    · exact ⟨_, .inr (.inr ⟨_, _, he, rfl, width, rfl, hw⟩), rfl⟩
    · exact ⟨_, .inr (.inr ⟨_, _, he, rfl, .inl ⟨value, width, rfl, hroom⟩⟩), rfl⟩
    · exact ⟨_, .inl ⟨_, he⟩, rfl⟩
  | bsWriteAll values width =>
    rcases execBsWriteAll_cases values width s with ⟨hw, he⟩ | ⟨_, hroom, he⟩ | ⟨_, _, he⟩
    · exact ⟨_, .inr (.inr ⟨_, _, he, rfl, width, rfl, hw⟩), rfl⟩
    · exact ⟨_, .inr (.inr ⟨_, _, he, rfl, .inr ⟨values, width, rfl, hroom⟩⟩), rfl⟩
    · exact ⟨_, .inl ⟨_, he⟩, rfl⟩
  | bsRead width =>
    rcases execBsRead_cases width s with ⟨hw, he⟩ | ⟨_, hempty, he⟩ | ⟨_, _, he⟩
    · exact ⟨_, .inr (.inr ⟨_, _, he, rfl, width, rfl, hw⟩), rfl⟩
    · exact ⟨_, .inr (.inl ⟨he, hempty, width, rfl⟩), rfl⟩
    · exact ⟨_, .inl ⟨_, he⟩, rfl⟩
  | bsReadAll width =>
    rcases execBsReadAll_cases width s with ⟨hw, he⟩ | ⟨rfl, he⟩ | ⟨_, he⟩
    · exact ⟨_, .inr (.inr ⟨_, _, he, rfl, width, rfl, hw⟩), rfl⟩
    · exact ⟨_, .inr (.inr ⟨_, _, he, rfl, rfl⟩), rfl⟩
    · exact ⟨_, .inl ⟨_, he⟩, rfl⟩
  | rotSet | rotGet => exact ⟨_, .inl ⟨_, rfl⟩, rfl⟩
  | tabMod k =>
    rcases execTabMod_cases k s with ⟨hk, he⟩ | ⟨_, he⟩
    · exact ⟨_, .inr (.inr ⟨_, _, he, .inl ⟨rfl, k, hk, .inl rfl⟩⟩), rfl⟩
    · exact ⟨_, .inl ⟨_, he⟩, rfl⟩
  | tabDem a b =>
    rcases execTabDem_cases a b s with ⟨_, he⟩ | ⟨_, _, he⟩
    · exact ⟨_, .inr (.inr ⟨_, _, he, .inl ⟨rfl, .inl ⟨a, b, rfl⟩⟩⟩), rfl⟩
    · exact ⟨_, .inl ⟨_, he⟩, rfl⟩
  | iqMod k =>
    rcases execIqMod_cases k s with ⟨hk, he⟩ | ⟨_, he⟩
    · exact ⟨_, .inr (.inr ⟨_, _, he, .inl ⟨rfl, k, hk, .inr rfl⟩⟩), rfl⟩
    · exact ⟨_, .inl ⟨_, he⟩, rfl⟩
  | quant p =>
    refine ⟨s.draw quantDraws, ?_, rfl⟩
    simp only [exec, execQuant]
    cases quantize s.cfg p s.draws with
    | none => exact .inr (.inr ⟨.outOfRange, 0, rfl, .inl ⟨rfl, .inr (.inl ⟨p, rfl⟩)⟩⟩)
    | some _ => exact .inl ⟨_, rfl⟩
  | iqDem p =>
    refine ⟨s.draw quantDraws, ?_, rfl⟩
    simp only [exec, execIqDem]
    cases demapSample s.cfg s.rot p s.draws with
    | none => exact .inr (.inr ⟨.outOfRange, 0, rfl, .inl ⟨rfl, .inr (.inr ⟨p, rfl⟩)⟩⟩)
    | some _ => exact .inl ⟨_, rfl⟩
  | modulate data =>
    rcases execModulate_cases data s with ⟨_, he⟩ | ⟨pre, x, post, hcut, _, hx, he⟩
    · exact ⟨_, .inl ⟨_, he⟩, rfl⟩
    · exact ⟨_, .inr (.inr ⟨_, _, he, .inr ⟨data, rfl, x, by simp [hcut], hx⟩⟩), rfl⟩
  | demodulate ps =>
    refine ⟨s.draw (quantDraws * ps.length), ?_, rfl⟩
    simp only [exec, execDemodulate]
    cases hd : demapSamples s.cfg s.rot s.draws 0 ps with
    | error k =>
      obtain ⟨j, rfl, hj, _⟩ := demapSamples_error 0 hd
      exact .inr (.inr ⟨.outOfRange, _, rfl, .inr ⟨ps, rfl, by omega⟩⟩)
    | ok _ => exact .inl ⟨_, rfl⟩

/-- A FIFO without room has a finite capacity (40_bitstream R88). -/
theorem State.depth_ne_none {s : State} {n : Nat} (h : ¬ s.hasRoom n) : s.cfg.depth ≠ none :=
  fun hnone => h fun _ hd => nomatch hnone.symm.trans hd

/-- Settles O46: by how a command answers; a chunk that is no symbol needs `DIM` at least 5, and an overflow a finite
capacity. -/
theorem statusesComeFromTheirCommands : Obligations.StatusesComeFromTheirCommands := by
  intro i s t h
  obtain ⟨u, ⟨bs, he⟩ | ⟨he, hnodata⟩ | ⟨c, info, he, hc⟩, hu⟩ := exec_answer_cases i s <;>
    cases he.symm.trans h <;> rw [State.respond_responses, hu]
  · exact ⟨_, rfl, .inl rfl⟩
  · exact ⟨_, rfl, .inr (.inl ⟨rfl, hnodata⟩)⟩
  · refine ⟨_, rfl, ?_⟩
    cases c with
    | invalidWidth =>
      obtain ⟨rfl, hw⟩ := hc
      exact .inr (.inr (.inl ⟨rfl, hw⟩))
    | invalidSymbol =>
      obtain ⟨rfl, hk⟩ | ⟨data, rfl, x, hx, hno⟩ := hc
      · exact .inr (.inr (.inr (.inl ⟨rfl, hk⟩)))
      · exact .inr (.inr (.inr (.inr (.inl ⟨info, data, rfl, rfl, five_le_dim_of_chunk hx hno⟩))))
    | outOfRange =>
      obtain ⟨rfl, hi⟩ | ⟨ps, rfl, hlt⟩ := hc
      · exact .inr (.inr (.inr (.inr (.inr (.inl ⟨rfl, hi⟩)))))
      · exact .inr (.inr (.inr (.inr (.inr (.inr (.inl ⟨info, ps, rfl, rfl, hlt⟩))))))
    | zeroWidth =>
      obtain ⟨rfl, rfl⟩ := hc
      exact .inr (.inr (.inr (.inr (.inr (.inr (.inr (.inl ⟨rfl, rfl⟩)))))))
    | fifoOverflow =>
      refine .inr (.inr (.inr (.inr (.inr (.inr (.inr (.inr ?_)))))))
      obtain ⟨rfl, ⟨v, w, rfl, hroom⟩ | ⟨vs, w, rfl, hroom⟩⟩ := hc
      · exact ⟨rfl, State.depth_ne_none hroom, .inl ⟨v, w, rfl⟩⟩
      · exact ⟨rfl, State.depth_ne_none hroom, .inr ⟨vs, w, rfl⟩⟩
    | illegalCommand => exact hc.elim

/-! ### Bursts and single commands (30_encoding R70) -/

theorem State.hasRoom.mono {s : State} {m n : Nat} (h : s.hasRoom n) (hmn : m ≤ n) : s.hasRoom m :=
  fun d hd => (Nat.add_le_add_left hmn _).trans (h d hd)

/-- Writes one after another, with room for all, append their bits in order (40_bitstream R80). -/
theorem execAll_bsWrite_room {w : Nat} : ∀ (vs : List Nat) (s : State), s.hasRoom (vs.length * w) →
    ∃ t, execAll (vs.map fun v => .bsWrite v w) s = .next t ∧ t.fifo = s.fifo ++ lsbitsAll vs w
  | [], s, _ => ⟨s, rfl, (List.append_nil _).symm⟩
  | v :: vs, s, h => by
    rw [List.length_cons, Nat.succ_mul] at h
    have hroom : ((s.fifoPush (lsbits v w)).respond (okResponse [])).hasRoom (vs.length * w) := by
      intro d hd
      have := h d hd
      simp only [State.respond_fifo, State.fifoPush_fifo, List.length_append, lsbits_length]
      omega
    obtain ⟨t, ht, hf⟩ := execAll_bsWrite_room vs _ hroom
    refine ⟨t, ?_, ?_⟩
    · rw [List.map_cons, execAll, exec_bsWrite_room (h.mono (Nat.le_add_left _ _))]
      exact ht
    · rw [hf, State.respond_fifo, State.fifoPush_fifo, lsbitsAll_cons, List.append_assoc]

/-- Reads of all whole words answer the groups of F, one each (40_bitstream R82, R83). -/
theorem execAll_bsRead_groups {w : Nat} (hw : 0 < w) : ∀ (m : Nat) (s : State), s.fifo.length / w = m →
    ∃ t, execAll (List.replicate m (.bsRead w)) s = .next t ∧
      t.responses = s.responses ++ (groups w s.fifo).map fun v => okResponse [.int v]
  | 0, s, hm => by
    have hshort : s.fifo.length < w := (Nat.div_eq_zero_iff_lt hw).1 hm
    exact ⟨s, rfl, by simp [groups_short w _ hshort]⟩
  | m + 1, s, hm => by
    have hle : w ≤ s.fifo.length := (Nat.div_pos_iff.1 (by omega)).2
    have hrest : (s.fifo.drop w).length / w = m := by
      have := Nat.div_eq_sub_div hw hle
      rw [List.length_drop]
      omega
    obtain ⟨t, ht, hr⟩ := execAll_bsRead_groups hw m
      ((s.fifoDrop w).respond (okResponse [.int (bitsVal (s.fifo.take w))])) hrest
    refine ⟨t, ?_, ?_⟩
    · rw [List.replicate_succ, execAll, exec_bsRead_whole hw hle]
      exact ht
    · have hcut := groups_append w hw (s.fifo.take w) (s.fifo.drop w) (List.length_take_of_le hle)
      rw [List.take_append_drop] at hcut
      simp [hr, hcut]

/-- Settles O20: both ways F grows by the same bits, or shrinks to the bits behind its groups, which are the words. -/
theorem burstsEqualSingleCommands : Obligations.BurstsEqualSingleCommands := by
  refine ⟨fun vs w s hroom => ?_, fun w s hw => ?_⟩
  · obtain ⟨t, ht, hf⟩ := execAll_bsWrite_room vs s hroom
    exact ⟨t, _, ht, exec_bsWriteAll_room hroom, hf⟩
  · obtain ⟨t, ht, hf⟩ := execAll_bsRead_whole hw (s.fifo.length / w) s (Nat.div_mul_le_self _ _)
    obtain ⟨t', ht', hr⟩ := execAll_bsRead_groups hw _ s rfl
    cases ht.symm.trans ht'
    exact ⟨groups w s.fifo, t, _, ht, exec_bsReadAll_pos hw, hf, hr, rfl⟩

end Sys2Proof.Machine
end

section
/-!
The statements of 40_bitstream. A CW header gives its width to the decoder; each command of the FIFO is then what its
meaning says in that case, and what it appends or takes is a run of bits, whose elements and value are the laws of
`lsbits`, `windowVal` and `groups`.
-/

namespace Sys2Proof

/-! ### Bits written and values read (40_bitstream R80 to R84) -/

/-- Bit `i` of word `k` is bit `k * w + i` of the stream that the words make (40_bitstream R81). -/
theorem lsbitsAll_getElem?_word {vs : List Nat} {w k i : Nat} (hk : k < vs.length) (hi : i < w) :
    (lsbitsAll vs w)[k * w + i]? = some (vs[k].testBit i) := by
  have hlt : k * w + i < vs.length * w :=
    calc k * w + i < (k + 1) * w := by rw [Nat.succ_mul]; omega
      _ ≤ vs.length * w := Nat.mul_le_mul_right w hk
  have hdiv : (k * w + i) / w = k := by rw [Nat.mul_comm, Nat.mul_add_div (by omega), Nat.div_eq_of_lt hi, Nat.add_zero]
  have hmod : (k * w + i) % w = i := (Nat.mul_add_mod' k w i).trans (Nat.mod_eq_of_lt hi)
  rw [lsbitsAll_getElem? vs w _ hlt, streamBit, hdiv, hmod, List.getD_eq_getElem _ _ hk]

/-- The value of the first `k` bits, over their indices (40_bitstream R82). -/
theorem bitsVal_take_eq_windowVal (s : Bits) (k : Nat) : bitsVal (s.take k) = windowVal s 0 k :=
  bitsVal_drop_take s 0 k

theorem windowVal_lt (s : Bits) (start n : Nat) : windowVal s start n < 2 ^ n := by
  rw [← bitsVal_drop_take]
  exact (bitsVal_lt _).trans_le (Nat.pow_le_pow_right two_pos (List.length_take_le _ _))

/-- The first `k` bits are the low digits of the value (40_bitstream R84). -/
theorem bitsVal_take (s : Bits) (k : Nat) : bitsVal (s.take k) = bitsVal s % 2 ^ k := by
  refine Nat.eq_of_testBit_eq fun i => ?_
  rw [Nat.testBit_mod_two_pow, testBit_bitsVal, testBit_bitsVal]
  by_cases hi : i < k <;> simp [List.getD, hi]

/-- The bits behind the first `k` are the high digits of the value (40_bitstream R84). -/
theorem bitsVal_drop (s : Bits) (k : Nat) : bitsVal (s.drop k) = bitsVal s / 2 ^ k := by
  refine Nat.eq_of_testBit_eq fun i => ?_
  simp [Nat.testBit_div_two_pow, testBit_bitsVal, List.getD, Nat.add_comm]

/-- What is left behind the whole groups is shorter than one: the remainder (40_bitstream R86). -/
theorem length_drop_groupCount (w : Nat) (s : Bits) : (s.drop (groupCount w s * w)).length = s.length % w := by
  rw [List.length_drop, groupCount, Nat.mod_eq_sub_div_mul]

/-- Words written at width `w` behind whole words of that width are read back behind them (40_bitstream R85). -/
theorem groups_append_lsbitsAll {w : Nat} (hw : 0 < w) {s : Bits} (hs : w ∣ s.length) {vs : List Nat}
    (hvs : ∀ v ∈ vs, v < 2 ^ w) : groups w (s ++ lsbitsAll vs w) = groups w s ++ vs := by
  have hlow : vs.map (· % 2 ^ w) = vs :=
    (List.map_congr_left fun v hv => Nat.mod_eq_of_lt (hvs v hv)).trans (List.map_id' vs)
  rw [groups_append_whole w hw _ s _ (Nat.div_mul_cancel hs).symm, groups_lsbitsAll w hw, hlow]

end Sys2Proof

namespace Sys2Proof.Machine

/-! ### The FIFO commands, case by case (40_bitstream R80 to R83) -/

/-- A CW header of opcode `op` and width word `w` decodes with the beats of a command of that opcode and width
(30_encoding R61, R64). -/
theorem decode_opcode_width {op : BitVec 4} {w : BitVec 12} {bs : List Beat} {i : Instr}
    (henc : encode i = (headerCW op w.toInt, bs)) (hwf : i.wellFormed = widthFits w.toInt) :
    decode (op ++ w) bs = .ok i := by
  have hwidth : Header.width (op ++ w) = w.toInt := congrArg BitVec.toInt (header_low op w)
  exact decode_of_cw (op := op) (congrArg BitVec.toNat (header_op op w)) (hwidth ▸ henc) (hwidth ▸ hwf)

/-- A write without room (40_bitstream R80, R88). -/
theorem exec_bsWrite_noRoom {v w : Nat} {s : State} (h : ¬ s.hasRoom w) :
    exec (.bsWrite v w) s = raise .fifoOverflow 0 s := by
  rcases execBsWrite_cases v w s with ⟨hneg, _⟩ | ⟨_, _, he⟩ | ⟨_, hroom, _⟩
  · omega
  · exact he
  · exact absurd hroom h

/-- A burst write without room (40_bitstream R81, R88). -/
theorem exec_bsWriteAll_noRoom {vs : List Nat} {w : Nat} {s : State} (h : ¬ s.hasRoom (vs.length * w)) :
    exec (.bsWriteAll vs w) s = raise .fifoOverflow 0 s := by
  rcases execBsWriteAll_cases vs w s with ⟨hneg, _⟩ | ⟨_, _, he⟩ | ⟨_, hroom, _⟩
  · omega
  · exact he
  · exact absurd hroom h

/-- A read of an empty FIFO (40_bitstream R82). -/
theorem exec_bsRead_empty {w : Nat} {s : State} (h : s.fifo = []) : exec (.bsRead w) s = completeNoData s := by
  rcases execBsRead_cases w s with ⟨hneg, _⟩ | ⟨_, _, he⟩ | ⟨_, hne, _⟩
  · omega
  · exact he
  · exact absurd h hne

/-- Settles O11: a width is negative, without room or with room, and what is appended are the bits of `lsbits`. -/
theorem bsWriteAppendsLowBits : Obligations.BsWriteAppendsLowBits := by
  refine fun value width s => ⟨fun w => decode_opcode_width rfl rfl, fun hneg => exec_negative_width rfl hneg s,
    fun hw hroom => ?_, fun hw hroom => ?_⟩ <;> lift width to ℕ using hw
  · exact exec_bsWrite_noRoom hroom
  · exact ⟨lsbits value width, lsbits_length value width, lsbits_getElem? value width, exec_bsWrite_room hroom⟩

/-- Settles O12: as for a single write, with the bits of all the words in order. -/
theorem bsWriteAllAppendsEachInOrder : Obligations.BsWriteAllAppendsEachInOrder := by
  refine fun values width s => ⟨fun w => decode_opcode_width rfl rfl, fun hneg => exec_negative_width rfl hneg s,
    fun hw hroom => ?_, fun hw hroom => ?_⟩ <;> lift width to ℕ using hw
  · exact exec_bsWriteAll_noRoom hroom
  · exact ⟨lsbitsAll values width, lsbitsAll_length values width, fun k i hk hi => lsbitsAll_getElem?_word hk hi,
      exec_bsWriteAll_room hroom⟩

/-- Settles O13: a width is negative, or F is empty, or a run is taken from its head. -/
theorem bsReadConsumesFromHead : Obligations.BsReadConsumesFromHead := by
  refine fun width s => ⟨fun w => decode_opcode_width rfl rfl, fun hneg => exec_negative_width rfl hneg s,
    fun hw hempty => ?_, fun hw hne k hk => ⟨windowVal_lt s.fifo 0 k, ?_⟩⟩ <;> lift width to ℕ using hw
  · exact exec_bsRead_empty hempty
  · rw [← bitsVal_take_eq_windowVal, hk]
    exact exec_bsRead_some hne

/-- Settles O14: a width is negative, 0 or positive, and the words of a positive one are the groups of F. -/
theorem bsReadAllConsumesWholeGroups : Obligations.BsReadAllConsumesWholeGroups := by
  refine fun width s => ⟨fun w => decode_opcode_width rfl rfl, fun hneg => exec_negative_width rfl hneg s,
    fun hzero => ?_, fun hpos n hn => ?_⟩
  · rw [hzero]
    rfl
  · lift width to ℕ using hpos.le
    subst hn
    refine ⟨groups width s.fifo, groups_length width s.fifo, groups_getElem? width s.fifo, groups_lt width s.fifo,
      length_drop_groupCount width s.fifo, ?_⟩
    rw [exec_bsReadAll_pos (by omega), Beat.ofInts, groups_length]
    rfl

/-! ### Laws over several commands (40_bitstream R84 to R87) -/

/-- Settles O15: F of whole words and the values behind it are cut into its words and the values, without a rest. -/
theorem readAllAfterWriteAllReturnsValues : Obligations.ReadAllAfterWriteAllReturnsValues := by
  intro V w s hw hV hroom hwhole
  have hcut := groups_append_lsbitsAll hw hwhole hV
  have hrest : ((s.fifo ++ lsbitsAll V w).drop (groupCount w (s.fifo ++ lsbitsAll V w) * w)).length = 0 := by
    rw [length_drop_groupCount, List.length_append, lsbitsAll_length]
    exact Nat.mod_eq_zero_of_dvd (hwhole.add (Nat.dvd_mul_left w _))
  refine ⟨groups w s.fifo, _, _, groups_length w s.fifo, fun k hk => groups_getElem? w s.fifo k (by simpa using hk),
    exec_bsWriteAll_room hroom, exec_bsReadAll_pos hw, List.eq_nil_of_length_eq_zero hrest, ?_⟩
  simp [hcut, okResponse, statusOk, Beat.ofInts]

/-- Settles O16: the words are the groups of F, and behind them the remainder stays. -/
theorem readAllLeavesThePartialGroup : Obligations.ReadAllLeavesThePartialGroup := by
  intro w s hw
  refine ⟨_, groups w s.fifo, exec_bsReadAll_pos hw, ?_, groups_length w s.fifo, length_drop_groupCount w s.fifo,
    List.drop_suffix _ _⟩
  rw [← groups_length]
  rfl

/-- Settles O17: in each of its cases a write leaves F or appends to it, and a read leaves F or drops a prefix. -/
theorem fifoGrowsAtTailShrinksAtHead : Obligations.FifoGrowsAtTailShrinksAtHead := by
  intro i s t h
  cases i with
  | bsWrite value width =>
    rcases execBsWrite_cases value width s with ⟨_, he⟩ | ⟨_, _, he⟩ | ⟨_, _, he⟩ <;> cases he.symm.trans h
    exacts [List.prefix_rfl, List.prefix_rfl, List.prefix_append _ _]
  | bsWriteAll values width =>
    rcases execBsWriteAll_cases values width s with ⟨_, he⟩ | ⟨_, _, he⟩ | ⟨_, _, he⟩ <;> cases he.symm.trans h
    exacts [List.prefix_rfl, List.prefix_rfl, List.prefix_append _ _]
  | bsRead width =>
    rcases execBsRead_cases width s with ⟨_, he⟩ | ⟨_, _, he⟩ | ⟨_, _, he⟩ <;> cases he.symm.trans h
    exacts [List.suffix_rfl, List.suffix_rfl, List.drop_suffix _ _]
  | bsReadAll width =>
    rcases execBsReadAll_cases width s with ⟨_, he⟩ | ⟨_, he⟩ | ⟨_, he⟩ <;> cases he.symm.trans h
    exacts [List.suffix_rfl, List.suffix_rfl, List.drop_suffix _ _]
  | rotSet | rotGet | tabMod | tabDem | quant | iqMod | iqDem | modulate | demodulate => exact exec_keeps_fifo rfl h

/-- Settles O18: appended bits are higher digits of the value, and a read cuts off the low ones. -/
theorem fifoAsLengthAndValue : Obligations.FifoAsLengthAndValue := by
  refine ⟨fun v w s t hroom h => ?_, fun k s t hne hk h => ?_⟩
  · cases (exec_bsWrite_room hroom).symm.trans h
    rw [State.respond_fifo, State.fifoPush_fifo, List.length_append, lsbits_length, bitsVal_append, bitsVal_lsbits,
      Nat.mul_comm (2 ^ _)]
    exact ⟨rfl, rfl⟩
  · have he := exec_bsRead_some (w := k) hne
    rw [min_eq_left hk, bitsVal_take] at he
    cases he.symm.trans h
    exact ⟨rfl, List.length_drop, bitsVal_drop s.fifo k⟩

end Sys2Proof.Machine
end

section
/-!
The statements of 41_constellation. Signs and roundings are those of the real number, so each answer of the quantizer is
one that the reference numerics allow; under `R = 1` they allow no fault on the square, and every command that quantizes
completes there. Table and grid are read at the place `demgrid` of a row and a column, which is every symbol once.
-/

namespace Sys2Proof

/-! ### Signs and roundings (41_constellation R110, R111) -/

theorem SignOf.eq_eq_iff {o : Ordering} {v : ℝ} (h : SignOf o v) : o = .eq ↔ v = 0 := by
  cases o with
  | lt => simpa using (show v < 0 from h).ne
  | eq => simpa using (show v = 0 from h)
  | gt => simpa using (show 0 < v from h).ne'

/-- Settles O34: by the law of the sign, read for each order. -/
theorem signsAreThoseOfTheReals : Obligations.SignsAreThoseOfTheReals :=
  fun x => ⟨x.sign_spec.eq_lt_iff, x.sign_spec.eq_eq_iff, x.sign_spec.eq_gt_iff⟩

/-- A rounding of a number is any other that holds of it, and no other. -/
theorem Rounding.Holds.eq_iff {r r' : Rounding} {x : ℝ} (h : r.Holds x) : r = r' ↔ r'.Holds x :=
  ⟨fun e => e ▸ h, Rounding.holds_unique h⟩

/-- At a tie the draw answers one of the two neighbours, whatever the free choice is (41_constellation R111). -/
theorem Rounding.atDraw_tie (n : ℤ) (k : Nat) : (Rounding.tie n).atDraw k = n ∨ (Rounding.tie n).atDraw k = n + 1 :=
  (ite_eq_or_eq _ _ _).symm

/-- Settles O33: both roundings hold of their number, and a number has one rounding only. -/
theorem roundingIsThatOfTheReals : Obligations.RoundingIsThatOfTheReals := by
  intro c v r x hr
  have h : r.Holds x := by
    rcases hr with ⟨rfl, rfl⟩ | ⟨rfl, rfl⟩
    · exact v.rounding_spec
    · exact gridRounding_spec c v
  refine ⟨fun n => h.eq_iff, fun n => h.eq_iff, fun n k hx => ?_⟩
  rw [h.eq_iff.2 (show (Rounding.tie n).Holds x from hx)]
  exact Rounding.atDraw_tie n k

/-! ### When the quantizer inverts the table (41_constellation R113) -/

/-- The scaled number of a table component is nearest to its own index exactly under R113's condition. -/
theorem holds_nearest_comp_iff (c : Config) (k : Nat) :
    (Rounding.nearest k).Holds (gridReal c (comp c k)) ↔ Inverts c k := by
  have hoff : gridReal c (comp c k) - (k : ℝ) = ((k : ℝ) - ((c.dim : ℝ) - 1) / 2) * (1 / c.scale.val - 1) := by
    rw [gridReal_comp]
    ring
  rw [Rounding.Holds, Inverts, Int.cast_natCast, hoff]

/-- R113's condition holds for every index exactly where it holds for the outermost. -/
theorem inverts_all_iff (c : Config) :
    (∀ k, k < c.dim → Inverts c k) ↔ ((c.dim : ℝ) - 1) * |1 / c.scale.val - 1| < 1 := by
  have hpos := c.dim_sub_one_pos
  constructor
  · intro h
    have h0 := h 0 (zero_lt_two.trans_le c.two_le_dim)
    rw [Inverts, abs_mul, Nat.cast_zero, zero_sub, abs_neg, abs_of_pos (half_pos hpos)] at h0
    linarith
  · intro h k hk
    have hk' : (k : ℝ) + 1 ≤ c.dim := by exact_mod_cast hk
    have hout : |(k : ℝ) - ((c.dim : ℝ) - 1) / 2| ≤ ((c.dim : ℝ) - 1) / 2 := by
      have := k.cast_nonneg (α := ℝ)
      rw [abs_le]
      constructor <;> linarith
    rw [Inverts, abs_mul]
    have := mul_le_mul_of_nonneg_right hout (abs_nonneg (1 / c.scale.val - 1))
    linarith

/-- Under `R = sqrt 2 / 2` every index inverts exactly up to `DIM` 3 (41_constellation R113 b). -/
theorem inverts_all_iff_of_scale_sqrt {c : Config} (h : c.scale.val = Real.sqrt 2 / 2) :
    (∀ k, k < c.dim → Inverts c k) ↔ c.dim ≤ 3 := by
  have hlow : (4 / 3 : ℝ) < Real.sqrt 2 := Real.lt_sqrt_of_sq_lt (by norm_num)
  have hhigh : Real.sqrt 2 < 3 / 2 := (Real.sqrt_lt' (by norm_num)).2 (by norm_num)
  have hinv : |1 / c.scale.val - 1| = Real.sqrt 2 - 1 := by
    rw [h, one_div_div, Real.div_sqrt, abs_of_pos (by linarith)]
  rw [inverts_all_iff, hinv]
  constructor
  · intro hlt
    by_contra hdim
    have : (4 : ℝ) ≤ c.dim := by exact_mod_cast not_le.1 hdim
    nlinarith
  · intro hdim
    have : (c.dim : ℝ) ≤ 3 := by exact_mod_cast hdim
    nlinarith

/-- Settles O31: a component's rounding is its own index exactly where that holds of the scaled number, which is R113's
condition; the two scales by that condition at the outermost index. -/
theorem quantizerInvertsTableExactlyWhen : Obligations.QuantizerInvertsTableExactlyWhen := by
  refine ⟨fun c k v _ hv => ?_, fun c h k _ => inverts_of_scale_one h k, fun c h => inverts_all_iff_of_scale_sqrt h⟩
  rw [(gridRounding_spec c v).eq_iff, hv, holds_nearest_comp_iff]

/-! ### The scale `R = 1` (41_constellation R107 b, R113 a) -/

theorem gridReal_of_scale_one {c : Config} (h : c.scale.val = 1) (v : ℝ) :
    gridReal c v = (v + 1) * ((c.dim : ℝ) - 1) / 2 := by
  rw [gridReal, h, div_one]

/-- Under `R = 1` no coordinate of `[-1, 1]` faults: it scales into `[0, DIM - 1]`, and so does what it rounds to. -/
theorem not_axisFaults_of_scale_one {c : Config} (h : c.scale.val = 1) {v : ℝ} (hv : |v| ≤ 1) : ¬ AxisFaults c v := by
  have hpos := c.dim_sub_one_pos
  obtain ⟨hlow, hhigh⟩ := abs_le.1 hv
  rintro (hout | ⟨n, hn, hout⟩)
  · exact hout ⟨hlow, hhigh⟩
  · rw [RoundsTo, gridReal_of_scale_one h] at hn
    obtain ⟨h1, h2⟩ := abs_le.1 hn
    have hn0 : (-1 : ℝ) < n := by nlinarith
    have hn1 : (n : ℝ) < c.dim := by nlinarith
    have hn0' : -1 < n := by exact_mod_cast hn0
    have hn1' : n < (c.dim : ℤ) := by exact_mod_cast hn1
    exact hout ⟨by omega, hn1'⟩

/-- Under `R = 1` no sample of the square faults. -/
theorem not_sampleFaults_of_scale_one {c : Config} (h : c.scale.val = 1) {p : ℂ} (hre : |p.re| ≤ 1)
    (him : |p.im| ≤ 1) : ¬ SampleFaults c p :=
  not_or.2 ⟨not_axisFaults_of_scale_one h him, not_axisFaults_of_scale_one h hre⟩

/-- An index that an axis gives lies in the grid (41_constellation R107). -/
theorem AxisGives.lt_dim {c : Config} {v : ℝ} {k : Nat} (h : AxisGives c v k) : k < c.dim := by
  obtain ⟨_, _, _, hlt⟩ := h
  exact hlt

/-- Under `R = 1` the index that an axis gives is that of a nearest component: half a grid step at most. -/
theorem AxisGives.near_of_scale_one {c : Config} (h : c.scale.val = 1) {v : ℝ} {k : Nat} (hk : AxisGives c v k) :
    |v - (2 * (k : ℝ) - c.dim + 1) / ((c.dim : ℝ) - 1)| ≤ 1 / ((c.dim : ℝ) - 1) := by
  have hpos := c.dim_sub_one_pos
  obtain ⟨_, _, hround, _⟩ := hk
  have hscaled : gridReal c v - ((k : ℤ) : ℝ) =
      (v - (2 * (k : ℝ) - c.dim + 1) / ((c.dim : ℝ) - 1)) * (((c.dim : ℝ) - 1) / 2) := by
    rw [gridReal_of_scale_one h, Int.cast_natCast]
    field_simp
    ring
  rw [RoundsTo, hscaled, abs_mul, abs_of_pos (half_pos hpos)] at hround
  rw [le_div_iff₀ hpos]
  linarith

/-! ### Rows and columns of the grid (41_constellation R101, R116) -/

/-- The grid's entry at a row and a column is the symbol with that quotient and that remainder by `DIM`. -/
theorem demgrid_eq_iff {c : Config} {r k x : Nat} (hk : k < c.dim) :
    demgrid c r k = x ↔ x / c.dim = r ∧ x % c.dim = k := by
  rw [Nat.div_mod_unique (Machine.Config.dim_pos c), demgrid, Nat.mul_comm]
  exact (and_iff_left hk).symm

theorem demgrid_lt_order {c : Config} {r k : Nat} (hr : r < c.dim) (hk : k < c.dim) : demgrid c r k < c.order := by
  have := Nat.mul_le_mul_right c.dim (Nat.succ_le_of_lt hr)
  rw [Nat.succ_mul] at this
  rw [demgrid, Config.order]
  omega

/-- The table's point at a row and a column: the column's component is real, the row's imaginary. -/
theorem modtab_val_demgrid {c : Config} {r k : Nat} (hk : k < c.dim) :
    (modtab c (demgrid c r k)).val = ⟨(comp c k : ℝ), (comp c r : ℝ)⟩ := by
  obtain ⟨hr, hk⟩ := (demgrid_eq_iff hk).1 rfl
  rw [modtab_eq, Cplx.val_ofRat, hr, hk]

/-! ### The extreme points of the table (41_constellation R114, R115) -/

theorem comp_zero (c : Config) : (comp c 0 : ℝ) = -1 := by
  rw [comp_cast, div_eq_iff c.dim_sub_one_pos.ne']
  push_cast
  ring

theorem comp_last (c : Config) : (comp c (c.dim - 1) : ℝ) = 1 := by
  rw [comp_cast, div_eq_one_iff_eq c.dim_sub_one_pos.ne', Nat.cast_pred (Machine.Config.dim_pos c)]
  ring

/-- Settles O27: each component is that of an index below `DIM`, and the corners are the first and last index. -/
theorem tableIsNormalisedWithCorners : Obligations.TableIsNormalisedWithCorners := by
  intro c
  have hpos := Machine.Config.dim_pos c
  have hlast : c.dim - 1 < c.dim := by omega
  have hbottomLeft : 0 = demgrid c 0 0 := by rw [demgrid, Nat.zero_mul]
  have hbottomRight : c.dim - 1 = demgrid c 0 (c.dim - 1) := by rw [demgrid, Nat.zero_mul, Nat.add_zero]
  have htopRight : c.order - 1 = demgrid c (c.dim - 1) (c.dim - 1) := by
    rw [demgrid, Nat.sub_one_mul, Config.order]
    have := Nat.le_mul_self c.dim
    omega
  have htopLeft : c.order - c.dim = demgrid c (c.dim - 1) 0 := by
    rw [demgrid, Nat.sub_one_mul, Config.order, Nat.zero_add]
  refine ⟨fun k hk => ?_, ?_, ?_, ?_, ?_⟩
  · rw [modtab_eq, Cplx.val_ofRat]
    exact ⟨abs_le.2 (comp_inUnit (Nat.mod_lt k hpos)), abs_le.2 (comp_inUnit (Nat.div_lt_of_lt_mul hk))⟩
  · rw [hbottomLeft, modtab_val_demgrid hpos, comp_zero]
  · rw [htopRight, modtab_val_demgrid hlast, comp_last]
  · rw [hbottomRight, modtab_val_demgrid hlast, comp_last, comp_zero]
  · rw [htopLeft, modtab_val_demgrid hpos, comp_last, comp_zero]

end Sys2Proof

namespace Sys2Proof.Machine

/-! ### The rotation register (41_constellation R108, R109) -/

/-- Settles O21: the header and the meaning compute. -/
theorem rotSetWritesRot : Obligations.RotSetWritesRot := fun _ _ => ⟨rfl, rfl⟩

/-- Commands one after another: the first answers a state, and the rest go on from there (20_memory R49). -/
theorem execAll_cons_eq_next {i : Instr} {is : List Instr} {s t : State} :
    execAll (i :: is) s = .next t ↔ ∃ u, exec i s = .next u ∧ execAll is u = .next t := by
  rw [execAll]
  cases exec i s <;> simp

/-- Commands without ROT.SET among them leave ROT (10_state R23). -/
theorem execAll_keeps_rot {is : List Instr} (hwrite : ∀ i ∈ is, ∀ x, i ≠ .rotSet x) {s t : State}
    (h : execAll is s = .next t) : t.rot = s.rot := by
  induction is generalizing s with
  | nil => cases h; rfl
  | cons i is ih =>
    obtain ⟨u, hi, hrest⟩ := execAll_cons_eq_next.1 h
    rw [ih (fun j hj => hwrite j (List.mem_cons_of_mem i hj)) hrest,
      exec_keeps_rot (hwrite i List.mem_cons_self) hi]

theorem exec_rotGet (s : State) : exec .rotGet s = .next (s.answered 0x0 [.real s.rot]) := rfl

/-- Settles O22: ROT.GET answers ROT, which ROT.SET or reset wrote and the commands in between left. -/
theorem rotGetReadsRot : Obligations.RotGetReadsRot := by
  refine ⟨rfl, exec_rotGet, fun theta s is t hwrite h => ?_, fun c is t hwrite h => ?_⟩
  · obtain ⟨u, hset, hrest⟩ := execAll_cons_eq_next.1 h
    cases hset
    have hrot : t.rot = theta := execAll_keeps_rot hwrite hrest
    rw [exec_rotGet, hrot]
  · have hrot : t.rot = .rat 0 := execAll_keeps_rot hwrite h
    rw [exec_rotGet, hrot]

/-! ### The table reads (41_constellation R105, R106, R116) -/

/-- TAB.MOD of a symbol (41_constellation R105). -/
theorem exec_tabMod_lt {x : Nat} {s : State} (h : x < s.cfg.order) :
    exec (.tabMod x) s = .next (s.answered 0x0 [.cplx (modtab s.cfg x)]) := by
  rcases execTabMod_cases x s with ⟨hno, _⟩ | ⟨_, he⟩
  · omega
  · exact he

/-- TAB.DEM of a row and a column of the grid (41_constellation R106). -/
theorem exec_tabDem_lt {r k : Nat} {s : State} (hr : r < s.cfg.dim) (hk : k < s.cfg.dim) :
    exec (.tabDem r k) s = .next (s.answered 0x0 [.int (demgrid s.cfg r k)]) := by
  rcases execTabDem_cases r k s with ⟨hno, _⟩ | ⟨_, _, he⟩
  · omega
  · exact he

/-- Settles O24: a symbol is below ORDER or not, and the table's value is that of `modtab_val`. -/
theorem tabModReadsTable : Obligations.TabModReadsTable :=
  fun x s => ⟨rfl, fun hno => if_pos hno, fun hx => ⟨modtab s.cfg x, modtab_val s.cfg x, exec_tabMod_lt hx⟩⟩

/-- Settles O25: an index is outside the grid, or both are inside. -/
theorem tabDemReadsGrid : Obligations.TabDemReadsGrid := fun _ _ _ => ⟨rfl, fun hno => if_pos hno, exec_tabDem_lt⟩

/-- TAB.DEM at a place of the grid answers a symbol exactly where the symbol has that quotient and remainder. -/
theorem exec_tabDem_eq_iff {r k x : Nat} {s : State} (hr : r < s.cfg.dim) (hk : k < s.cfg.dim) :
    exec (.tabDem r k) s = .next (s.answered 0x0 [.int x]) ↔ x / s.cfg.dim = r ∧ x % s.cfg.dim = k := by
  rw [exec_tabDem_lt hr hk, ← demgrid_eq_iff hk]
  simp [State.respond]

/-- Settles O26: a symbol's place is its quotient and remainder by `DIM`, which lie in the grid, and the table's point
at a place is that of its column and row. -/
theorem gridInvertsTableLayout : Obligations.GridInvertsTableLayout := by
  intro s
  have hrow : ∀ {x}, x < s.cfg.order → x / s.cfg.dim < s.cfg.dim := fun hx => Nat.div_lt_of_lt_mul hx
  have hcol : ∀ x, x % s.cfg.dim < s.cfg.dim := fun x => Nat.mod_lt x (Config.dim_pos s.cfg)
  have hplace : ∀ {x}, x < s.cfg.order →
      exec (.tabDem (x / s.cfg.dim) (x % s.cfg.dim)) s = .next (s.answered 0x0 [.int x]) :=
    fun hx => (exec_tabDem_eq_iff (hrow hx) (hcol _)).2 ⟨rfl, rfl⟩
  refine ⟨fun x hx => ⟨(x / s.cfg.dim, x % s.cfg.dim), ⟨hrow hx, hcol x, hplace hx⟩, ?_⟩, fun x hx => hplace hx,
    fun r k hr hk => ⟨_, exec_tabMod_lt (demgrid_lt_order hr hk), ?_⟩⟩
  · rintro ⟨r, k⟩ ⟨hr, hk, he⟩
    obtain ⟨rfl, rfl⟩ := (exec_tabDem_eq_iff hr hk).1 he
    rfl
  · rw [← comp_cast, ← comp_cast]
    exact modtab_val_demgrid hk

/-! ### The quantizer (41_constellation R107) -/

/-- Settles O28: QUANT answers what the quantizer does, in both of its cases. -/
theorem quantAgreesWithReals : Obligations.QuantAgreesWithReals := by
  refine fun p s => ⟨rfl, ?_⟩
  rcases quantize_cases s.cfg p s.draws with ⟨q, i, hq, hgives⟩ | ⟨hq, hfaults⟩
  · exact .inl ⟨q, i, _, hgives, by rw [exec, execQuant, hq]; rfl⟩
  · exact .inr ⟨_, hfaults, by rw [exec, execQuant, hq]; rfl⟩

/-- Settles O29: the value of a pair of reals is the pair. -/
theorem quantOfPairOfReals : Obligations.QuantOfPairOfReals := by
  intro x y s
  obtain ⟨_, h⟩ := quantAgreesWithReals (Cplx.ofNums x y) s
  rwa [Cplx.val_ofNums] at h

/-- Settles O30: under `R = 1` the fault is not allowed on the square, and an allowed index is a nearest one. -/
theorem quantCompletesUnderScaleOne : Obligations.QuantCompletesUnderScaleOne := by
  intro p s hscale hre him
  rcases (quantAgreesWithReals p s).2 with ⟨q, i, d, ⟨hq, hi⟩, he⟩ | ⟨_, hfaults, _⟩
  · exact ⟨q, i, d, he, hq.lt_dim, hi.lt_dim, hi.near_of_scale_one hscale, hq.near_of_scale_one hscale⟩
  · exact absurd hfaults (not_sampleFaults_of_scale_one hscale hre him)

/-! ### Mapping and demapping that completes (43_modulate_demodulate R130 to R132) -/

/-- Settles O40: up to `DIM` 4 no chunk is beyond the symbols, so every chunk is mapped. -/
theorem modulateNeverFaultsUpToDimFour : Obligations.ModulateNeverFaultsUpToDimFour := by
  intro data s hdim
  rcases execModulate_cases data s with ⟨_, he⟩ | ⟨pre, x, post, hcut, _, hno, _⟩
  · exact ⟨_, he, by rw [List.length_map, chunksOf_length]⟩
  · have hx : x ∈ chunksOf s.cfg data := by simp [hcut]
    have := five_le_dim_of_chunk hx hno
    omega

/-- A sample that may not fault demaps to a symbol, at every draw (42_iq_mod_dem R121). -/
theorem demapSample_of_not_sampleFaults {c : Config} {rot : RealExpr} {p : Cplx}
    (h : ¬ SampleFaults c (p.val * rotor (-rot.val))) (k : Nat) :
    ∃ symbol, symbol < c.order ∧ demapSample c rot p k = some symbol := by
  rcases demapSample_cases c rot p k with ⟨q, i, hd, hq, hi⟩ | ⟨_, hfaults⟩
  · exact ⟨_, demgrid_lt_order hq.lt_dim hi.lt_dim, hd⟩
  · exact absurd hfaults h

/-- Samples that may not fault demap to as many symbols (43_modulate_demodulate R131). -/
theorem demapSamples_of_not_sampleFaults {c : Config} {rot : RealExpr} {l : List Cplx}
    (h : ∀ p ∈ l, ¬ SampleFaults c (p.val * rotor (-rot.val))) (d : Nat) :
    ∃ syms, demapSamples c rot d 0 l = .ok syms ∧ syms.length = l.length := by
  cases hd : demapSamples c rot d 0 l with
  | ok syms => exact ⟨syms, rfl, (demapSamples_ok 0 hd).1⟩
  | error j =>
    obtain ⟨i, _, hi, hnone, _⟩ := demapSamples_error 0 hd
    obtain ⟨_, _, hsome⟩ := demapSample_of_not_sampleFaults (h l[i] (List.getElem_mem hi)) (d + quantDraws * (0 + i))
    cases hnone.symm.trans hsome

/-- Settles O42: under `R = 1` no sample of the square may fault, so each demaps, and the symbols are cut into bytes. -/
theorem demappingCompletesUnderScaleOne : Obligations.DemappingCompletesUnderScaleOne := by
  refine fun s hscale => ⟨fun p hre him => ?_, fun samples hsquare => ?_⟩
  · obtain ⟨symbol, hlt, hd⟩ :=
      demapSample_of_not_sampleFaults (not_sampleFaults_of_scale_one hscale hre him) s.draws
    exact ⟨symbol, _, hlt, by rw [exec, execIqDem, hd]; rfl⟩
  · obtain ⟨syms, hd, hlen⟩ := demapSamples_of_not_sampleFaults (d := s.draws) fun p hp =>
      not_sampleFaults_of_scale_one hscale (hsquare p hp).1 (hsquare p hp).2
    refine ⟨bytesOf s.cfg syms, _, ?_, groups_lt 8 _, by rw [exec, execDemodulate, hd]; rfl⟩
    rw [bytesOf_length, hlen]

end Sys2Proof.Machine
end

section
/-!
The statements of 42_iq_mod_dem. IQ.MOD answers the table's point turned by ROT, and IQ.DEM what the quantizer answers for
the sample turned back. Of a point that IQ.MOD answered, the sample turned back is the table's point itself, so R122 is
the quantizer's condition on its two components.
-/

namespace Sys2Proof

/-- A component's scaled number lies off its own index by the number that R113's condition bounds. -/
theorem gridReal_comp_sub (c : Config) (k : Nat) :
    gridReal c (comp c k) - (k : ℝ) = ((k : ℝ) - ((c.dim : ℝ) - 1) / 2) * (1 / c.scale.val - 1) := by
  rw [gridReal_comp]
  ring

/-- A component that may round to its own index lies within R113's bound, which it attains at a tie. -/
theorem AxisGives.abs_le_half_of_comp {c : Config} {k : Nat} (h : AxisGives c (comp c k) k) :
    |((k : ℝ) - ((c.dim : ℝ) - 1) / 2) * (1 / c.scale.val - 1)| ≤ 1 / 2 := by
  obtain ⟨_, _, hround, _⟩ := h
  rwa [RoundsTo, Int.cast_natCast, gridReal_comp_sub] at hround

/-- The sample that IQ.DEM quantizes of a point that IQ.MOD answered (42_iq_mod_dem R122). -/
theorem modtab_rotate_mul_rotor_neg (c : Config) (rot : RealExpr) (x : Nat) :
    ((modtab c x).rotate (Angle.ofNum rot)).val * rotor (-rot.val) =
      ⟨(comp c (x % c.dim) : ℝ), (comp c (x / c.dim) : ℝ)⟩ := by
  rw [← Cplx.val_derotate, Cplx.val_rotate_derotate, modtab_eq, Cplx.val_ofRat]

/-- A symbol that a mapped point demaps back to has two indices that their own components may round to. -/
theorem axisGives_of_demapSample_mapped {c : Config} {rot : RealExpr} {x d : Nat}
    (h : demapSample c rot ((modtab c x).rotate (Angle.ofNum rot)) d = some x) :
    AxisGives c (comp c (x % c.dim)) (x % c.dim) ∧ AxisGives c (comp c (x / c.dim)) (x / c.dim) := by
  rcases demapSample_cases c rot ((modtab c x).rotate (Angle.ofNum rot)) d with ⟨q, i, hsome, hgives⟩ | ⟨hnone, _⟩
  · rw [modtab_rotate_mul_rotor_neg] at hgives
    obtain ⟨hrow, hcol⟩ := hgives
    have hx : demgrid c q i = x := Option.some.inj (hsome.symm.trans h)
    obtain ⟨hq, hi⟩ := (demgrid_eq_iff hcol.lt_dim).1 hx
    rw [← hq] at hrow
    rw [← hi] at hcol
    exact ⟨hcol, hrow⟩
  · cases hnone.symm.trans h

end Sys2Proof

namespace Sys2Proof.Machine

/-- IQ.MOD of a symbol (42_iq_mod_dem R120). -/
theorem exec_iqMod_lt {x : Nat} {s : State} (h : x < s.cfg.order) :
    exec (.iqMod x) s = .next (s.answered 0x0 [.cplx ((modtab s.cfg x).rotate (Angle.ofNum s.rot))]) := by
  rcases execIqMod_cases x s with ⟨hno, _⟩ | ⟨_, he⟩
  · omega
  · exact he

/-- IQ.MOD of a number that is no symbol (42_iq_mod_dem R120). -/
theorem exec_iqMod_ge {x : Nat} {s : State} (h : s.cfg.order ≤ x) :
    exec (.iqMod x) s = .next (s.answered 0x9 [.cnt 0]) := by
  rcases execIqMod_cases x s with ⟨_, he⟩ | ⟨hx, _⟩
  · exact he
  · omega

/-- IQ.DEM answers what the sample demaps to, and writes nothing else but the count of draws (42_iq_mod_dem R121). -/
theorem exec_iqDem (p : Cplx) (s : State) :
    exec (.iqDem p) s = .next { s with
      responses := s.responses ++ [answerDemap (demapSample s.cfg s.rot p s.draws)], draws := s.draws + quantDraws } :=
  rfl

/-- A demapping command answers a symbol exactly where the sample demaps to it. -/
theorem answerDemap_eq_ok_iff {o : Option Nat} {x : Nat} : answerDemap o = ⟨0x0, [.int x]⟩ ↔ o = some x := by
  cases o with
  | none => simp [answerDemap, faultResponse]
  | some y => simp [answerDemap, okResponse, statusOk]

/-- Settles O36: a symbol is below ORDER or not, and turning the table's point multiplies its value by the rotor. -/
theorem iqModRotatesTablePoint : Obligations.IqModRotatesTablePoint := by
  refine fun x s => ⟨rfl, exec_iqMod_ge, fun hx => ⟨_, ?_, exec_iqMod_lt hx⟩⟩
  rw [Cplx.val_rotate_ofNum, modtab_val]

/-- Settles O37: IQ.DEM answers what the sample demaps to, in both of its cases. -/
theorem iqDemAgreesWithReals : Obligations.IqDemAgreesWithReals := by
  refine fun p s => ⟨rfl, ?_⟩
  rcases demapSample_cases s.cfg s.rot p s.draws with ⟨q, i, hd, hgives⟩ | ⟨hd, hfaults⟩
  · obtain ⟨hq, hi⟩ := hgives
    exact .inl ⟨q, i, _, ⟨hq, hi⟩, demgrid_lt_order hq.lt_dim hi.lt_dim, by rw [exec_iqDem, hd]; rfl⟩
  · exact .inr ⟨_, hfaults, by rw [exec_iqDem, hd]; rfl⟩

/-- Settles O38: the mapped point demaps to its symbol where both indices invert, and where it does, each index is one
that its component may round to. -/
theorem iqDemUndoesIqMod : Obligations.IqDemUndoesIqMod := by
  intro x s t hx hcfg hrot
  refine ⟨_, _, _, exec_iqMod_lt hx, exec_iqDem _ t, ?_, ?_⟩ <;> rw [hcfg, hrot, answerDemap_eq_ok_iff]
  · exact fun hcol hrow => demapSample_mapped hx hcol hrow t.draws
  · rintro hd k (rfl | rfl)
    · exact (axisGives_of_demapSample_mapped hd).1.abs_le_half_of_comp
    · exact (axisGives_of_demapSample_mapped hd).2.abs_le_half_of_comp

end Sys2Proof.Machine
end

section
/-!
The statements of 43_modulate_demodulate. MODULATE answers OK exactly where every chunk is a symbol, and then with
the chunks' points turned by ROT; DEMODULATE answers what its loop over the samples finds. The round trip is that of the
samples, symbol by symbol, and then that of the bytes through their chunks.
-/

namespace Sys2Proof

/-! ### Chunks of a burst (20_memory R42) -/

/-- A chunk of width `w2` is a number of `w2` bits, also where it reaches beyond the stream. -/
theorem chunkVal_lt (vs : List Nat) (w1 w2 k : Nat) : chunkVal vs w1 w2 k < 2 ^ w2 := by
  have hbits : chunkVal vs w1 w2 k = windowVal ((List.range w2).map fun i => streamBit vs w1 (k * w2 + i)) 0 w2 := by
    refine congrArg List.sum (List.map_congr_left fun i hi => ?_)
    simp [List.mem_range.1 hi]
  exact hbits ▸ windowVal_lt _ 0 w2

/-- Up to `DIM` 4 every chunk is a symbol (41_constellation R104). -/
theorem chunkVal_lt_order {c : Config} (h : c.dim ≤ 4) (data : List Nat) (k : Nat) :
    chunkVal data 8 c.dim k < c.order :=
  (chunkVal_lt data 8 c.dim k).trans_le (Machine.Config.two_pow_dim_le_order h)

end Sys2Proof

namespace Sys2Proof.Machine

/-- Chunk `k` of a burst, for an index in the list of chunks. -/
theorem chunksOf_getElem {c : Config} {data : List Nat} {k : Nat} (hk : k < (chunksOf c data).length) :
    (chunksOf c data)[k] = chunkVal data 8 c.dim k :=
  (List.getElem_eq_iff hk).2 (chunksOf_getElem? c data k (chunksOf_length c data ▸ hk))

/-- What holds of every chunk of a burst holds of the chunk at each index, and conversely. -/
theorem forall_mem_chunksOf_iff {c : Config} {data : List Nat} {P : Nat → Prop} :
    (∀ x ∈ chunksOf c data, P x) ↔ ∀ k, k < 8 * data.length / c.dim → P (chunkVal data 8 c.dim k) := by
  constructor
  · exact fun h k hk => h _ (List.mem_of_getElem? (chunksOf_getElem? c data k hk))
  · intro h x hx
    obtain ⟨k, hk, rfl⟩ := List.getElem_of_mem hx
    rw [chunksOf_getElem hk]
    exact h k (chunksOf_length c data ▸ hk)

/-- Whole chunks of a burst come before those of what follows it (43_modulate_demodulate R135). -/
theorem chunksOf_append {c : Config} {X : List Nat} (hX : 8 * X.length % c.dim = 0) (Y : List Nat) :
    chunksOf c (X ++ Y) = chunksOf c X ++ chunksOf c Y := by
  have hlen : (lsbitsAll X 8).length = X.length * 8 / c.dim * c.dim := by
    rw [lsbitsAll_length, Nat.div_mul_cancel (Nat.dvd_of_mod_eq_zero (Nat.mul_comm 8 X.length ▸ hX))]
  rw [chunksOf, Config.dataBits, lsbitsAll_append]
  exact groups_append_whole c.dim (Config.dim_pos c) _ _ _ hlen

/-- The chunks of a burst, cut at the one with index `k`. -/
theorem chunksOf_eq_take_cons_drop {c : Config} {data : List Nat} {k : Nat} (hk : k < 8 * data.length / c.dim) :
    chunksOf c data = (chunksOf c data).take k ++ chunkVal data 8 c.dim k :: (chunksOf c data).drop (k + 1) := by
  rw [← chunksOf_getElem ((chunksOf_length c data).symm ▸ hk), List.getElem_cons_drop, List.take_append_drop]

/-! ### MODULATE (43_modulate_demodulate R130) -/

/-- The samples of a burst all of whose chunks are symbols: the chunks' points, turned by the rotation. -/
def samplesOf (c : Config) (rot : RealExpr) (data : List Nat) : List Cplx :=
  (chunksOf c data).map fun x => (modtab c x).rotate (Angle.ofNum rot)

theorem samplesOf_length (c : Config) (rot : RealExpr) (data : List Nat) :
    (samplesOf c rot data).length = 8 * data.length / c.dim := by
  rw [samplesOf, List.length_map, chunksOf_length]

/-- Sample `k` of a burst stands for the point of chunk `k` times the rotor. -/
theorem samplesOf_getElem? {c : Config} {rot : RealExpr} {data : List Nat} {k : Nat}
    (hk : k < 8 * data.length / c.dim) :
    ∃ p, (samplesOf c rot data)[k]? = some p ∧ p.val = modtabVal c (chunkVal data 8 c.dim k) * rotor rot.val := by
  refine ⟨_, by rw [samplesOf, List.getElem?_map, chunksOf_getElem? c data k hk]; rfl, ?_⟩
  rw [Cplx.val_rotate_ofNum, modtab_val]

/-- A burst all of whose chunks are symbols is answered by its samples. -/
theorem exec_modulate_ok {data : List Nat} {s : State} (h : ∀ x ∈ chunksOf s.cfg data, x < s.cfg.order) :
    exec (.modulate data) s = .next (s.answered 0x0 (Beat.ofCplxs (samplesOf s.cfg s.rot data))) := by
  rw [exec, execModulate, mapChunks_ok 0 h]
  rfl

/-- A burst is answered by the index of its first chunk that is no symbol. -/
theorem exec_modulate_error {data pre post : List Nat} {x : Nat} {s : State}
    (hcut : chunksOf s.cfg data = pre ++ x :: post) (hpre : ∀ y ∈ pre, y < s.cfg.order) (hx : s.cfg.order ≤ x) :
    exec (.modulate data) s = .next (s.answered 0x9 [.cnt pre.length]) := by
  rw [exec, execModulate, hcut, mapChunks_error 0 hpre hx, Nat.zero_add]
  rfl

theorem Beat.ofCplxs_injective : Function.Injective Beat.ofCplxs := by
  intro ps qs h
  have hburst := congrArg Beat.cplxBurst h
  rwa [Beat.cplxBurst_ofCplxs, Beat.cplxBurst_ofCplxs, Option.some.injEq] at hburst

/-- MODULATE answers OK exactly where every chunk is a symbol, and then the burst's samples. -/
theorem exec_modulate_eq_ok_iff {data : List Nat} {s : State} {ps : List Cplx} :
    exec (.modulate data) s = .next (s.answered 0x0 (Beat.ofCplxs ps)) ↔
      (∀ x ∈ chunksOf s.cfg data, x < s.cfg.order) ∧ samplesOf s.cfg s.rot data = ps := by
  constructor
  · intro hok
    rcases chunks_cases s.cfg (chunksOf s.cfg data) with h | ⟨pre, x, post, hcut, hpre, hx⟩
    · rw [exec_modulate_ok h] at hok
      refine ⟨h, Beat.ofCplxs_injective ?_⟩
      simpa [State.respond] using hok
    · rw [exec_modulate_error hcut hpre hx] at hok
      simp [State.respond] at hok
  · rintro ⟨h, rfl⟩
    exact exec_modulate_ok h

/-- Settles O39: the header decodes as the encoding does; the burst is answered by its samples, or cut at its first
chunk that is no symbol. -/
theorem modulateMapsChunks : Obligations.ModulateMapsChunks := by
  rintro data s c rfl
  refine ⟨decodeInvertsEncode (.modulate data) rfl, fun h => ?_, fun k hk hno hlow => ?_,
    fun hdim => chunkVal_lt_order hdim data⟩
  · refine ⟨samplesOf s.cfg s.rot data, samplesOf_length .., fun k => samplesOf_getElem?, ?_⟩
    rw [exec_modulate_ok (forall_mem_chunksOf_iff.2 h), Beat.ofCplxs, samplesOf_length]
  · have hpre : ∀ x ∈ (chunksOf s.cfg data).take k, x < s.cfg.order := by
      intro x hx
      obtain ⟨j, hj, rfl⟩ := List.mem_take_iff_getElem.1 hx
      rw [chunksOf_getElem]
      exact hlow j (by omega)
    have hlen : ((chunksOf s.cfg data).take k).length = k := by
      rw [List.length_take, chunksOf_length, min_eq_left hk.le]
    rw [exec_modulate_error (chunksOf_eq_take_cons_drop hk) hpre hno, hlen]

/-- Settles O45: OK says that every chunk is a symbol, and the chunks of the joined data are those of `X` and then those
of `Y`. -/
theorem modulateSplitsAtWholeChunks : Obligations.ModulateSplitsAtWholeChunks := by
  intro X Y s ps qs hX hps hqs
  obtain ⟨hXlow, rfl⟩ := exec_modulate_eq_ok_iff.1 hps
  obtain ⟨hYlow, rfl⟩ := exec_modulate_eq_ok_iff.1 hqs
  have hcut := chunksOf_append hX Y
  refine exec_modulate_eq_ok_iff.2 ⟨?_, ?_⟩
  · rw [hcut]
    exact List.forall_mem_append.2 ⟨hXlow, hYlow⟩
  · rw [samplesOf, hcut, List.map_append, samplesOf, samplesOf]

/-! ### DEMODULATE (43_modulate_demodulate R131) -/

/-- DEMODULATE answers what its loop finds, and writes nothing else but the count of draws. -/
theorem exec_demodulate (samples : List Cplx) (s : State) :
    exec (.demodulate samples) s = .next { s with
      responses := s.responses ++ [answerDemodulate s.cfg (demapSamples s.cfg s.rot s.draws 0 samples)],
      draws := s.draws + quantDraws * samples.length } :=
  rfl

/-- A symbol that a sample demaps to is that of indices the rule allows (42_iq_mod_dem R121). -/
theorem sampleGives_of_demapSample {c : Config} {rot : RealExpr} {p : Cplx} {k x : Nat}
    (h : demapSample c rot p k = some x) :
    ∃ q i, x = i + q * c.dim ∧ SampleGives c (p.val * rotor (-rot.val)) q i := by
  rcases demapSample_cases c rot p k with ⟨q, i, hsome, hgives⟩ | ⟨hnone, _⟩
  · exact ⟨q, i, Option.some.inj (h.symm.trans hsome), hgives⟩
  · cases hnone.symm.trans h

/-- A sample that demaps to no symbol is one that the rule allows to fault (42_iq_mod_dem R121). -/
theorem sampleFaults_of_demapSample {c : Config} {rot : RealExpr} {p : Cplx} {k : Nat}
    (h : demapSample c rot p k = none) : SampleFaults c (p.val * rotor (-rot.val)) := by
  rcases demapSample_cases c rot p k with ⟨_, _, hsome, _⟩ | ⟨_, hfaults⟩
  · cases hsome.symm.trans h
  · exact hfaults

/-- Settles O41: the loop demaps every sample, and the symbols are cut into bytes, or it ends at the first sample that
demaps to no symbol. -/
theorem demodulateAgreesWithReals : Obligations.DemodulateAgreesWithReals := by
  refine fun samples s => ⟨decodeInvertsEncode (.demodulate samples) rfl, _, _, exec_demodulate samples s, ?_⟩
  cases hd : demapSamples s.cfg s.rot s.draws 0 samples with
  | ok syms =>
    obtain ⟨hlen, hsyms⟩ := demapSamples_ok 0 hd
    have hbytes : (bytesOf s.cfg syms).length = samples.length * s.cfg.dim / 8 := by rw [bytesOf_length, hlen]
    refine .inl ⟨syms, bytesOf s.cfg syms, hlen, fun k hk => ?_, hbytes, fun k hk => ?_, rfl⟩
    · obtain ⟨x, hx, hsample⟩ := hsyms k hk
      obtain ⟨q, i, rfl, hgives⟩ := sampleGives_of_demapSample hsample
      exact ⟨q, i, hx, hgives⟩
    · exact bytesOf_getElem? s.cfg syms k (bytesOf_length s.cfg syms ▸ hk)
  | error j =>
    obtain ⟨k, rfl, hk, hnone, hbefore⟩ := demapSamples_error 0 hd
    refine .inr ⟨k, hk, sampleFaults_of_demapSample hnone, fun j hj => ?_, by rw [Nat.zero_add]; rfl⟩
    obtain ⟨_, hsample⟩ := hbefore j hj
    obtain ⟨q, i, _, hgives⟩ := sampleGives_of_demapSample hsample
    exact ⟨q, i, hgives⟩

/-! ### The round trip (43_modulate_demodulate R133, R134) -/

/-- Settles O43: the samples demap to the chunks they were made of, and the chunks are cut into the bytes again. -/
theorem demodulateUndoesModulate : Obligations.DemodulateUndoesModulate := by
  intro D s hbytes hwhole hchunks
  have hsymbols : ∀ x ∈ chunksOf s.cfg D,
      x < s.cfg.order ∧ Inverts s.cfg (x % s.cfg.dim) ∧ Inverts s.cfg (x / s.cfg.dim) :=
    forall_mem_chunksOf_iff.2 hchunks
  have hback : ∀ d, demapSamples s.cfg s.rot d 0 (samplesOf s.cfg s.rot D) = .ok (chunksOf s.cfg D) :=
    fun d => demapSamples_mapped d 0 hsymbols
  refine ⟨samplesOf s.cfg s.rot D, _, _, exec_modulate_ok fun x hx => (hsymbols x hx).1, rfl, exec_demodulate _ _, ?_⟩
  simp only [State.answered_eq, State.respond_cfg, State.respond_rot, hback, answerDemodulate,
    bytesOf_chunksOf s.cfg D hbytes hwhole]
  rfl

/-- Settles O44: up to `DIM` 4 every chunk is a symbol, and at each of the two scales the indices of a symbol invert. -/
theorem roundTripForEverySuitableData : Obligations.RoundTripForEverySuitableData := by
  intro D s hbytes hwhole hcfg
  have hdim : s.cfg.dim ≤ 4 := by omega
  have hinv : ∀ k, k < s.cfg.dim → Inverts s.cfg k := by
    rcases hcfg with ⟨hscale, _⟩ | ⟨hscale, hdim⟩
    · exact fun k _ => inverts_of_scale_one hscale k
    · exact (inverts_all_iff_of_scale_sqrt hscale).2 hdim
  refine demodulateUndoesModulate D s hbytes hwhole fun k _ => ?_
  have hlt := chunkVal_lt_order hdim D k
  exact ⟨hlt, hinv _ (Nat.mod_lt _ (Config.dim_pos s.cfg)), hinv _ (Nat.div_lt_of_lt_mul hlt)⟩

end Sys2Proof.Machine
end

section
/-!
The statements of 60_exceptions. A response tells which cause a command may have raised (`exec_response_cases`), and that
tells the command and its operands; conversely each such command answers its cause and writes nothing else.
-/

namespace Sys2Proof.Machine

/-! ### What a response tells of its command (60_exceptions R141, R151) -/

/-- Bit 3 is set in the code of every cause (30_encoding R63). -/
theorem isFault_causeCode (c : Cause) : isFault (causeCode c) = true := by
  cases c <;> rfl

@[simp] theorem isFault_faultResponse (c : Cause) (info : Nat) : isFault (faultResponse c info).status = true :=
  isFault_causeCode c

@[simp] theorem isFault_okResponse (bs : List Beat) : isFault (okResponse bs).status = false := by
  simp [isFault, okResponse, statusOk]

@[simp] theorem isFault_noDataResponse : isFault noDataResponse.status = false := rfl

/-- A response that is no fault is that of no cause. -/
theorem ne_faultResponse {r : Response} (h : isFault r.status = false) (c : Cause) (info : Nat) :
    r ≠ faultResponse c info := by
  rintro rfl
  simp at h

/-- No two causes share a code (60_exceptions R141). -/
theorem causeCode_injective : Function.Injective causeCode := by
  intro c c' h
  cases c <;> cases c' <;> simp [causeCode] at h ⊢

theorem faultResponse_inj {c c' : Cause} {info info' : Nat} :
    faultResponse c info = faultResponse c' info' ↔ c = c' ∧ info = info' := by
  simp [faultResponse, causeCode_injective.eq_iff]

/-- The response of a command is OK, or NoData, or that of a cause it may raise (30_encoding R63). -/
theorem exec_response_cases {i : Instr} {s t : State} {r : Response} (h : exec i s = .next t)
    (hr : t.responses = s.responses ++ [r]) :
    (∃ bs, r = okResponse bs) ∨ (r = noDataResponse ∧ s.fifo = [] ∧ ∃ w, i = .bsRead w) ∨
    ∃ c info, r = faultResponse c info ∧ MayRaise i s info c := by
  obtain ⟨u, ⟨bs, he⟩ | ⟨he, hnodata⟩ | ⟨c, info, he, hc⟩, hu⟩ := exec_answer_cases i s <;>
    cases he.symm.trans h <;>
    rw [State.respond_responses, hu, List.append_cancel_left_eq, List.singleton_inj] at hr
  · exact .inl ⟨bs, hr.symm⟩
  · exact .inr (.inl ⟨hr.symm, hnodata⟩)
  · exact .inr (.inr ⟨c, info, hr.symm, hc⟩)

/-- A fault's response is that of a cause which the command may raise. -/
theorem exec_fault_cases {i : Instr} {s t : State} {r : Response} (h : exec i s = .next t)
    (hr : t.responses = s.responses ++ [r]) (hfault : isFault r.status = true) :
    ∃ c info, r = faultResponse c info ∧ MayRaise i s info c := by
  rcases exec_response_cases h hr with ⟨bs, rfl⟩ | ⟨rfl, _⟩ | hc
  · simp at hfault
  · simp at hfault
  · exact hc

/-- A command that answers a cause may raise it. -/
theorem mayRaise_of_exec {i : Instr} {s t : State} {c : Cause} {info : Nat} (h : exec i s = .next t)
    (hr : t.responses = s.responses ++ [faultResponse c info]) : MayRaise i s info c := by
  obtain ⟨c', info', heq, hc⟩ := exec_fault_cases h hr (isFault_causeCode c)
  obtain ⟨rfl, rfl⟩ := faultResponse_inj.1 heq
  exact hc

/-- A FIFO command that answers anything but InvalidWidth has a width that is not negative (60_exceptions R142). -/
theorem width_nonneg_of_exec {i : Instr} {s t : State} {r : Response} {w : Int} (hi : widthOf i = some w)
    (h : exec i s = .next t) (hr : t.responses = s.responses ++ [r]) (hne : r ≠ faultResponse .invalidWidth 0) :
    0 ≤ w := by
  by_contra hneg
  cases (exec_negative_width hi (not_le.1 hneg) s).symm.trans h
  exact hne (List.singleton_inj.1 (List.append_cancel_left hr)).symm

/-- A lack of room is a finite capacity that the bits exceed (40_bitstream R88). -/
theorem State.not_hasRoom_iff {s : State} {n : Nat} :
    ¬ s.hasRoom n ↔ ∃ d, s.cfg.depth = some d ∧ d < s.fifo.length + n := by
  simp [State.hasRoom]

/-- FIFO overflow is answered by a write without room, of a width that is not negative (60_exceptions R147). -/
theorem write_of_fifoOverflow {i : Instr} {s t : State} {info : Nat} (h : exec i s = .next t)
    (hr : t.responses = s.responses ++ [faultResponse .fifoOverflow info]) :
    ∃ n, ¬ s.hasRoom n ∧
      ((∃ v, i = .bsWrite v n) ∨ ∃ (vs : List Nat) (w : Nat), n = vs.length * w ∧ i = .bsWriteAll vs w) := by
  have hne : faultResponse .fifoOverflow info ≠ faultResponse .invalidWidth 0 := nofun
  obtain ⟨-, ⟨v, w, rfl, hroom⟩ | ⟨vs, w, rfl, hroom⟩⟩ := mayRaise_of_exec h hr
  · lift w to ℕ using width_nonneg_of_exec rfl h hr hne
    exact ⟨w, hroom, .inl ⟨v, rfl⟩⟩
  · lift w to ℕ using width_nonneg_of_exec rfl h hr hne
    exact ⟨_, hroom, .inr ⟨vs, w, rfl, rfl⟩⟩

/-- A write without room answers FIFO overflow (60_exceptions R147). -/
theorem exec_write_noRoom {i : Instr} {s : State} {n : Nat} (hroom : ¬ s.hasRoom n)
    (hi : (∃ v, i = .bsWrite v n) ∨ ∃ (vs : List Nat) (w : Nat), n = vs.length * w ∧ i = .bsWriteAll vs w) :
    exec i s = .next (s.answered 0xC [.cnt 0]) := by
  rcases hi with ⟨v, rfl⟩ | ⟨vs, w, rfl, rfl⟩
  · exact exec_bsWrite_noRoom hroom
  · exact exec_bsWriteAll_noRoom hroom

/-! ### Each cause and its commands (60_exceptions R142 to R148) -/

/-- The width of a decoded FIFO command is that of its header (30_encoding R64). -/
theorem width_of_decode {h : Header} {bs : List Beat} {i : Instr} {w : Int} (hdec : decode h bs = .ok i)
    (hi : widthOf i = some w) : Header.width h = w := by
  obtain ⟨hwf, henc⟩ := encodeInvertsDecode h bs i hdec
  obtain ⟨rfl, -⟩ := Prod.mk.inj henc
  cases i <;> cases hi <;> exact headerCW_width hwf _

/-- The width of a header is negative exactly when its bit 11 is set (30_encoding R64). -/
theorem width_neg_iff (h : Header) : Header.width h < 0 ↔ h.getLsbD 11 = true := by
  have hmsb : (Header.low h).msb = h.getLsbD 11 := by
    rw [BitVec.msb_eq_getLsbD_last, Header.low, BitVec.getLsbD_extractLsb']
    rfl
  rw [← hmsb, BitVec.msb_eq_toInt, decide_eq_true_iff, Header.width]

/-- Settles O47: a cause tells its commands, and a negative width answers InvalidWidth. -/
theorem invalidWidthExactlyForNegativeWidths : Obligations.InvalidWidthExactlyForNegativeWidths := by
  refine ⟨fun i s => ⟨fun h => ?_, fun ⟨w, hi, hw⟩ => exec_negative_width hi hw s⟩, fun h bs i w hdec hi => ?_⟩
  · exact (mayRaise_of_exec (c := .invalidWidth) h rfl).2
  · rw [← width_of_decode hdec hi, width_neg_iff]

/-- MODULATE answers InvalidSymbol with the index of its first chunk that is no symbol (60_exceptions R143). -/
theorem exec_modulate_eq_invalidSymbol_iff {data : List Nat} {s : State} {k : Nat} :
    exec (.modulate data) s = .next (s.answered 0x9 [.cnt k]) ↔
      k < 8 * data.length / s.cfg.dim ∧ s.cfg.order ≤ chunkVal data 8 s.cfg.dim k ∧
        ∀ j, j < k → chunkVal data 8 s.cfg.dim j < s.cfg.order := by
  obtain ⟨-, -, hfirst, -⟩ := modulateMapsChunks data s _ rfl
  refine ⟨fun h => ?_, fun ⟨hk, hno, hlow⟩ => hfirst k hk hno hlow⟩
  have hex : ∃ j, j < 8 * data.length / s.cfg.dim ∧ s.cfg.order ≤ chunkVal data 8 s.cfg.dim j := by
    by_contra hall
    rw [exec_modulate_ok (forall_mem_chunksOf_iff.2 fun j hj => not_le.1 fun hno => hall ⟨j, hj, hno⟩)] at h
    simp [State.respond] at h
  obtain ⟨hk, hno⟩ := Nat.find_spec hex
  have hlow : ∀ j, j < Nat.find hex → chunkVal data 8 s.cfg.dim j < s.cfg.order :=
    fun j hj => not_le.1 fun hle => Nat.find_min hex hj ⟨hj.trans hk, hle⟩
  have hfind : Nat.find hex = k := by
    simpa [State.respond] using (hfirst _ hk hno hlow).symm.trans h
  exact hfind ▸ ⟨hk, hno, hlow⟩

/-- Settles O48: a cause tells its commands, and MODULATE names its first chunk that is no symbol. -/
theorem invalidSymbolExactlyFromOrderUp : Obligations.InvalidSymbolExactlyFromOrderUp := by
  refine ⟨fun i s k => ⟨fun h => ?_, ?_⟩, fun data s k hno => ?_⟩
  · rcases mayRaise_of_exec (c := .invalidSymbol) h rfl with hsymbol | ⟨data, rfl, -⟩
    · exact .inl hsymbol
    · exact .inr ⟨data, rfl, exec_modulate_eq_invalidSymbol_iff.1 h⟩
  · rintro (⟨rfl, x, hx, rfl | rfl⟩ | ⟨data, rfl, hk⟩)
    · exact (tabModReadsTable x s).2.1 hx
    · exact exec_iqMod_ge hx
    · exact exec_modulate_eq_invalidSymbol_iff.2 hk
  · by_contra hlt
    exact absurd (chunkVal_lt_order (by omega) data k) (not_lt.2 hno)

/-- Settles O49: a cause tells its commands. -/
theorem zeroWidthExactlyForReadAllZero : Obligations.ZeroWidthExactlyForReadAllZero := by
  refine fun i s => ⟨fun h => (mayRaise_of_exec (c := .zeroWidth) h rfl).2, ?_⟩
  rintro rfl
  rfl

/-- Settles O50: a write without room answers FifoOverflow, and no other command does. -/
theorem fifoOverflowExactlyWithoutRoom : Obligations.FifoOverflowExactlyWithoutRoom := by
  refine fun i s => ⟨fun h => ?_, fun ⟨n, d, hd, hlt, hi⟩ => exec_write_noRoom (State.not_hasRoom_iff.2 ⟨d, hd, hlt⟩) hi⟩
  obtain ⟨n, hroom, hi⟩ := write_of_fifoOverflow h rfl
  obtain ⟨d, hd, hlt⟩ := State.not_hasRoom_iff.1 hroom
  exact ⟨n, d, hd, hlt, hi⟩

/-- NoData is answered by `BS.READ` on an empty FIFO, with a width that is not negative (60_exceptions R148). -/
theorem read_of_noData {i : Instr} {s t : State} (h : exec i s = .next t)
    (hr : t.responses = s.responses ++ [noDataResponse]) : s.fifo = [] ∧ ∃ w : Nat, i = .bsRead w := by
  rcases exec_response_cases h hr with ⟨bs, hok⟩ | ⟨-, hempty, w, rfl⟩ | ⟨c, info, hc, -⟩
  · cases hok
  · lift w to ℕ using width_nonneg_of_exec rfl h hr nofun
    exact ⟨hempty, w, rfl⟩
  · exact absurd hc (ne_faultResponse isFault_noDataResponse c info)

/-- From an empty F nothing is removed (40_bitstream R83). -/
theorem State.fifoDrop_of_empty {s : State} (h : s.fifo = []) (k : Nat) : s.fifoDrop k = s := by
  rw [State.fifoDrop, h, List.drop_nil, ← h]

/-- Settles O51: NoData tells its command; a read of no bits takes the value of none, and an empty F has no group. -/
theorem noDataExactlyForReadOfEmptyFifo : Obligations.NoDataExactlyForReadOfEmptyFifo := by
  refine ⟨rfl, fun i s => ⟨fun h => read_of_noData h rfl, ?_⟩, fun s hne => ?_, fun w s hw hempty => ?_⟩
  · rintro ⟨hempty, w, rfl⟩
    exact exec_bsRead_empty hempty
  · exact (exec_bsRead_some (w := 0) hne).trans (by rw [Nat.zero_min]; rfl)
  · rw [exec_bsReadAll_pos hw, State.fifoDrop_of_empty hempty, hempty, groups_short w [] hw]
    rfl

/-! ### Faults are precise (60_exceptions R151) -/

/-- A command that raises a cause leaves F. -/
theorem exec_keeps_fifo_of_fault {i : Instr} {s t : State} {c : Cause} {info : Nat} (h : exec i s = .next t)
    (hr : t.responses = s.responses ++ [faultResponse c info]) : t.fifo = s.fifo := by
  have hc := mayRaise_of_exec h hr
  cases c with
  | invalidWidth =>
    obtain ⟨-, w, hi, hw⟩ := hc
    cases (exec_negative_width hi hw s).symm.trans h
    rfl
  | zeroWidth =>
    obtain ⟨-, rfl⟩ := hc
    cases h
    rfl
  | fifoOverflow =>
    obtain ⟨n, hroom, hi⟩ := write_of_fifoOverflow h hr
    cases (exec_write_noRoom hroom hi).symm.trans h
    rfl
  | invalidSymbol =>
    obtain ⟨-, k, -, rfl | rfl⟩ | ⟨data, rfl, -⟩ := hc <;> exact exec_keeps_fifo rfl h
  | outOfRange =>
    obtain ⟨-, ⟨a, b, rfl⟩ | ⟨p, rfl⟩ | ⟨p, rfl⟩⟩ | ⟨ps, rfl, -⟩ := hc <;> exact exec_keeps_fifo rfl h
  | illegalCommand => exact hc.elim

/-- ROT.SET raises no cause (41_constellation R108). -/
theorem ne_rotSet_of_fault {i : Instr} {s t : State} {c : Cause} {info : Nat} (h : exec i s = .next t)
    (hr : t.responses = s.responses ++ [faultResponse c info]) (x : RealExpr) : i ≠ .rotSet x := by
  rintro rfl
  cases h
  exact ne_faultResponse (isFault_okResponse []) c info (List.singleton_inj.1 (List.append_cancel_left hr))

/-- Settles O52: a fault's response is that of a cause, whose commands leave F and ROT; an illegal header answers
before any of the state is read. -/
theorem faultsArePrecise : Obligations.FaultsArePrecise := by
  refine ⟨fun i s t r h hr hfault => ?_, fun s t hd bs rest hin hnone h => ?_⟩
  · obtain ⟨c, info, rfl, -⟩ := exec_fault_cases h hr hfault
    exact ⟨exec_keeps_fifo_of_fault h hr, exec_keeps_rot (ne_rotSet_of_fault h hr) h, exec_keeps_cfg h, info, rfl⟩
  · cases (step_spellsNone hin hnone).symm.trans h
    exact ⟨rfl, rfl, rfl, rfl⟩

/-! ### The step (60_exceptions R149, R155) -/

/-- What a step that refuses has found before the block: beats with no command, or a malformed transaction. -/
theorem step_refused_iff {s : State} {r : Refusal} : step s = .refused r ↔ r = .malformedTransaction ∧
    ((∃ bs rest, s.inbox = .strayBeats bs :: rest) ∨
     ∃ h bs rest, s.inbox = .command h bs :: rest ∧ decode h bs = .error .malformed) := by
  constructor
  · intro hs
    rcases hin : s.inbox with _ | ⟨⟨h, bs⟩ | _ | bs, rest⟩
    · cases (step_idle hin).symm.trans hs
    · rcases hdec : decode h bs with (_ | _) | i
      · cases (step_illegal hin hdec).symm.trans hs
      · cases (step_malformed hin hdec).symm.trans hs
        exact ⟨rfl, .inr ⟨h, bs, rest, rfl, hdec⟩⟩
      · obtain ⟨f, theta, d, r', he⟩ := exec_eq_next i (s.taking rest)
        cases ((step_command hin hdec).trans he).symm.trans hs
    · cases (step_reset hin).symm.trans hs
    · cases (step_strayBeats hin).symm.trans hs
      exact ⟨rfl, .inl ⟨bs, rest, rfl⟩⟩
  · rintro ⟨rfl, ⟨bs, rest, hin⟩ | ⟨h, bs, rest, hin, hdec⟩⟩
    · exact step_strayBeats hin
    · exact step_malformed hin hdec

/-- Settles O58: malformed is what spells a command and is no encoding. -/
theorem onlyIllFramedTransactionsAreRefused : Obligations.OnlyIllFramedTransactionsAreRefused := by
  intro s r
  simp only [step_refused_iff, (decoderErrorsAreTheHeadersFirst _ _).2]

/-- Settles O9: by the law of a step that finds no event. -/
theorem nothingHappensWithoutAnEvent : Obligations.NothingHappensWithoutAnEvent := fun _ => step_idle

end Sys2Proof.Machine
end
